-- ==== Sys2Proof/Word.lean ====
section
/-! DEFINITION. The words of the block: its 4-bit command word and the 2-bit pin sample.

Timestamps are W bits wide and W is an open parameter of the device (R8), so a timestamp, LAST_TS,
WINDOW and T_RESET are unsigned integers (R13) that an invariant keeps below `2 ^ W`
(`Sys2Proof.Machine.State.Inv` in Safety.lean); the one modular operation on them is `subW`
(Machine/Operands.lean). -/

namespace Sys2Proof

/-- The command word `cmd[3:0]` (R60). -/
abbrev CmdWord := BitVec 4

/-- The pin sample: bit 1 is the CLK level and bit 0 the DT level (R12, R62). -/
abbrev Sample := BitVec 2

/-- The code of one row of the transition table, the 3 bits of the register STATE (R20, R67). -/
abbrev RowCode := BitVec 3

/-- The 5-bit code of the next-state value NS, `{acw_fin, cw_fin, row[2:0]}` (R68). -/
abbrev NextCode := BitVec 5

end Sys2Proof
end

