-- ==== Sys2Proof/Config.lean ====
section
/-! DEFINITION. What is fixed for a device before its first command (R8, R25, R26) and the values the spec leaves
open that no field can name. The configuration of a device is part of State (R22), so every statement about
all states is a statement about all configurations. -/

namespace Sys2Proof

/-- `PINS(k)`: the CLK pin, the DT pin and the optional SW pin of one encoder, as names of platform pins (R26, R44).
`HAS_SW(k)` is that the SW pin is there (R8). -/
structure Pins where
  clk : Nat
  dt  : Nat
  sw  : Option Nat
deriving DecidableEq, Repr

/-- `HAS_SW(k)` (R8). -/
def Pins.hasSw (p : Pins) : Bool := p.sw.isSome

/-- Every pin an encoder names. -/
def Pins.all (p : Pins) : List Nat := p.clk :: p.dt :: p.sw.toList

/-- The static configuration of one encoder: `ID(k)`, `PINS(k)` and its WINDOW (R25, R26). -/
structure EncoderConfig where
  id     : Nat
  pins   : Pins
  window : Nat
deriving DecidableEq, Repr

/-- OUT_MODE, the format in which the environment emits a record (R8, R140). -/
inductive OutMode
  | text
  | packed
deriving DecidableEq, Repr

/-- The parameters of a device (R8): the width W, T_RESET, OUT_MODE and one configuration per encoder in
declaration order, `N_ENC` of them. -/
structure DeviceConfig where
  w        : Nat
  tReset   : Nat
  outMode  : OutMode
  encoders : List EncoderConfig
deriving DecidableEq, Repr

/-- The default of WINDOW, "100 time units" (R25; a default and no constant, item I3). -/
def defaultWindow : Nat := 100

/-- The device that `State.reset` is. DESIGN CHOICE (log 1): the spec leaves W, T_RESET, N_ENC, ID, PINS and
OUT_MODE open; these are the values its test vectors use (W = 32, T_RESET = 0, the two encoders of vector E1).
UNSAFE for a claim about `State.reset` alone; the statements hold for every configuration. -/
def DeviceConfig.standard : DeviceConfig where
  w := 32
  tReset := 0
  outMode := .packed
  encoders :=
    [ { id := 0, pins := { clk := 2, dt := 3, sw := some 4 }, window := defaultWindow },
      { id := 1, pins := { clk := 5, dt := 6, sw := none }, window := defaultWindow } ]

/-- TEXT_ID_FMT, the rendering of `<id>` in TEXT mode: OPEN (D20, I15), so a free value (log 2; safe). -/
opaque Config.textIdFmt : Nat → String

/-- TEXT_EOL, the line terminator in TEXT mode: OPEN (D20, I15), so a free value (log 2; safe). -/
opaque Config.textEol : String

/-- The byte the environment sends in PACKED mode for an id of 16 or more, which "does not fit the byte" (R140), by id
and action code: the spec states no byte there, so a free value (log 3; safe). -/
opaque Config.packedUnfit : Nat → Nat → BitVec 8

end Sys2Proof
end

