-- ==== Sys2Proof/Syntax.lean ====
section
/-! DEFINITION. The commands of the block: one constructor per row of spec/opcode_table.json. -/

namespace Sys2Proof

/-- A command with its operand (R61). The reserved op `11` has no constructor: the decoder rejects it (R65). -/
inductive Instr
  /-- NOP: a step in which no trigger reaches the encoder (R115). -/
  | nop
  /-- ADVANCE: advance the rotation state machine by one pin sample (R80). -/
  | advance (s : Sample)
  /-- CLICK: decide whether a switch trigger at time `now` is an accepted click (R100). The operand arrives on the port
  `now[W-1:0]`, beside the command word (R60). -/
  | click (now : Nat)
deriving DecidableEq, Repr

end Sys2Proof
end

