-- ==== Sys2Proof/WellFormed.lean ====
section
/-! DEFINITION. The checks on a command and on a configuration. -/

namespace Sys2Proof

/-- A W-bit unsigned value (R13, R70). -/
def fitsW (w v : Nat) : Bool := decide (v < 2 ^ w)

/-- A command that the ports of an encoder of width `w` can carry: "a value written for an operand or register must lie
in `[0, 2^W - 1]`" (R70). All four samples are legal (R62). -/
def Instr.wellFormed (w : Nat) : Instr → Bool
  | .nop => true
  | .advance _ => true
  | .click now => fitsW w now

/-- The widths of R8: `W >= 1`, and T_RESET and every WINDOW are W-bit values. -/
def DeviceConfig.widthsOk (c : DeviceConfig) : Bool :=
  decide (1 ≤ c.w) && fitsW c.w c.tReset && c.encoders.all fun e => fitsW c.w e.window

/-- `N_ENC >= 1` (R8). -/
def DeviceConfig.hasEncoder (c : DeviceConfig) : Bool := !c.encoders.isEmpty

/-- `ID(k)` is distinct per encoder (R8). -/
def DeviceConfig.idsDistinct (c : DeviceConfig) : Bool :=
  decide ((c.encoders.map (·.id)).Nodup)

/-- PACKED mode needs `ID(k) <= 15` for every k (R140). -/
def DeviceConfig.idsFit (c : DeviceConfig) : Bool :=
  match c.outMode with
  | .text => true
  | .packed => c.encoders.all fun e => decide (e.id ≤ 15)

/-- The pins of the device are distinct: a duty of the environment that nothing checks at run time (R135, R158), so a
premise of the claims that need it and no part of `wellFormed`. The pins within one encoder must differ too: DESIGN CHOICE (log 19),
since the spec asks for distinct pins "per encoder" (R135) and "across instances" (R8, I9) and says no more. -/
def DeviceConfig.pinsDistinct (c : DeviceConfig) : Bool :=
  decide ((c.encoders.flatMap (·.pins.all)).Nodup)

/-- A configuration within R8 and R140. -/
def DeviceConfig.wellFormed (c : DeviceConfig) : Bool :=
  c.widthsOk && c.hasEncoder && c.idsDistinct && c.idsFit

end Sys2Proof
end

