-- ==== Sys2Proof/Decode.lean ====
section
/-! DEFINITION. The decoder of the command ports (`cmd`, `now`), total on every word, and the encoder. -/

namespace Sys2Proof

/-- One row of spec/opcode_table.json: the word has this row's op when its bits under the mask are the pattern. -/
structure OpRow where
  mask    : CmdWord
  pattern : CmdWord
deriving DecidableEq, Repr

/-- The word belongs to the row. -/
def OpRow.matches (r : OpRow) (cmd : CmdWord) : Bool := (cmd &&& r.mask) == r.pattern

/-- NOP, `00xx` (R61). -/
def nopRow : OpRow := { mask := 0b1100#4, pattern := 0b0000#4 }

/-- ADVANCE, `01cd` (R61). -/
def advanceRow : OpRow := { mask := 0b1100#4, pattern := 0b0100#4 }

/-- CLICK, `10xx` (R61). -/
def clickRow : OpRow := { mask := 0b1100#4, pattern := 0b1000#4 }

/-- The opcode table, in its order. -/
def opcodeTable : List OpRow := [nopRow, advanceRow, clickRow]

/-- The operand field `a = cmd[1:0]` (R60). -/
def operandField (cmd : CmdWord) : Sample := cmd.extractLsb' 0 2

/-- What the port `now[W-1:0]` carries of a timestamp: its W low bits (R60; the source's timestamp "wraps on overflow", R136).
DEDUCED (log 4): exact for every W-bit value. -/
def portNow (w now : Nat) : Nat := now % 2 ^ w

/-- Why the decoder rejects a word. -/
inductive DecodeError
  /-- The op code `11`, words `1100` to `1111`, is reserved and has no meaning (R65). -/
  | reservedOp
deriving DecidableEq, Repr

/-- The command an encoder of timestamp width `w` sees on its ports (R61). NOP and CLICK ignore `cmd[1:0]`, and only
CLICK reads `now` (R64). -/
def decode (w : Nat) (cmd : CmdWord) (now : Nat) : Except DecodeError Instr :=
  if nopRow.matches cmd then .ok .nop
  else if advanceRow.matches cmd then .ok (.advance (operandField cmd))
  else if clickRow.matches cmd then .ok (.click (portNow w now))
  else .error .reservedOp

/-- The word of ADVANCE with sample `s`: `01ss` (R62). -/
def advanceWord (s : Sample) : CmdWord := 0b01#2 ++ s

/-- The command word and the `now` operand of a command, as R71 writes them: NOP is `0000`, `ADV ss` is `01ss`, `CLICK n`
is `1000` with `now = n`. A command that ignores `now` is given 0 there. -/
def encode : Instr → CmdWord × Nat
  | .nop => (0b0000#4, 0)
  | .advance s => (advanceWord s, 0)
  | .click now => (0b1000#4, now)

/-- The decoder on a word numbered as spec/opcode_table.json numbers it. A command is one 4-bit word (R60), so a word with a
bit above bit 3 is none; `now` is on its own port and stands at 0. -/
def decodeTableWord (_nbits w : Nat) : Option Instr :=
  if w < 2 ^ 4 then (decode DeviceConfig.standard.w (BitVec.ofNat 4 w) 0).toOption else none

end Sys2Proof
end

