-- ==== Sys2Proof/Machine/State.lean ====
section
/-! DEFINITION. The state of the device: its encoders, each with the registers STATE and LAST_TS, the outputs of the
step just made and its configuration (R20 to R32), and the environment's side of the interface (R124, R137 to R141): the
commands and triggers still to come, and what the last step handed back. -/

namespace Sys2Proof.Machine

/-- RotationState, the ten nominal states (R21). The two finish states exist only as the next-state value NS inside one
ADVANCE step. -/
inductive RotationState
  | start
  | cw1
  | cw2
  | cw3
  | acw1
  | acw2
  | acw3
  | fault
  | cwFinish
  | acwFinish
deriving DecidableEq, Repr

/-- A row of the transition table: the eight values the register STATE can hold (R20, R67). -/
inductive Row
  | start
  | cw1
  | cw2
  | cw3
  | acw1
  | acw2
  | acw3
  | fault
deriving DecidableEq, Repr

/-- RotationEvent (R9, R69). -/
inductive RotationEvent
  | none
  | clockwise
  | antiClockwise
deriving DecidableEq, Repr

/-- The three 1-bit outputs an encoder drives in a step (R27). -/
structure Outputs where
  cw    : Bool
  acw   : Bool
  click : Bool
deriving DecidableEq, Repr

/-- One encoder. `state` is STATE (R20), `lastTs` is LAST_TS (R24), `cfg` is WINDOW, ID and PINS (R25, R26). `out` is what
the encoder drove in the step just made: the block stores no output (R27), and no step reads what an earlier step left
here (log 5). -/
structure Encoder where
  cfg    : EncoderConfig
  state  : Row
  lastTs : Nat
  out    : Outputs
deriving DecidableEq, Repr

/-- The inputs of an encoder in one step (R60). -/
structure Ports where
  cmd : CmdWord
  now : Nat
  rst : Bool
deriving DecidableEq, Repr

/-- What reaches the device in one step. A trigger's step has `rst = 0` (DESIGN CHOICE, log 17). -/
inductive Stimulus
  /-- The ports of encoder `k` carry `p` (R60). With `rst` the step is a reset of every encoder (R150, log 7). -/
  | drive (k : Nat) (p : Ports)
  /-- The environment runs the CLK/DT handler for `pin` (R137). `clk` and `dt` are what its two `readPinLevel` calls
  answer: draws of the environment, which the block cannot check (R132, R154, I12). -/
  | rotation (pin : Nat) (clk dt : Bool)
  /-- The environment runs the SW handler for `pin` with the timestamp `now`, a draw of the environment (R138, R160, I13). -/
  | click (pin : Nat) (now : Nat)
deriving DecidableEq, Repr

/-- What the dispatch function of the step returned (R137, R138); `nothing` also where the step ran none. -/
inductive Returned
  /-- `None`: no encoder claims the pin, or the rotation event is NONE. -/
  | nothing
  /-- `Some(ID(k), event)` of dispatchRotation. -/
  | rotation (id : Nat) (event : RotationEvent)
  /-- `Some(ID(k), accepted)` of dispatchClick. -/
  | click (id : Nat) (accepted : Bool)
deriving DecidableEq, Repr

/-- One record on the environment's output channel (R140). -/
inductive Emission
  /-- TEXT: one line. -/
  | text (line : String)
  /-- PACKED: one byte. -/
  | packed (byte : BitVec 8)
deriving DecidableEq, Repr

/-- The device. `w`, `tReset` and `outMode` are its parameters (R8), `encoders` its encoders in declaration order (R129,
R134). `inputs` is what is still to come from the environment, the next stimulus first (R23, R48; the model's own field, log 6).
`sel` is the encoder that the command being performed goes to (R71's `e<k>:`; the model's own field, log 6). `returned` and
`emission` are what the environment got back and sent in the step just made (R137, R138, R141; log 5). -/
structure State where
  w        : Nat
  tReset   : Nat
  outMode  : OutMode
  encoders : List Encoder
  inputs   : List Stimulus
  sel      : Nat
  returned : Returned
  emission : Option Emission
deriving DecidableEq, Repr

/-- Reasons of a fault: there are none, since "the block raises no exception, trap or error of any kind" (R120). -/
inductive Fault
deriving DecidableEq, Repr

/-- Reasons of a refusal: the model's own stops, none of them the hardware's (R116, R120). -/
inductive Refusal
  /-- An instruction without a meaning in this model. Raised by no arm of `exec`. Safe. -/
  | notModelled (mnemonic : String)
  /-- A command word with the reserved op `11` (R65, R116: "A model refuses the step"). Raised by `issue`. Safe. -/
  | reservedCommand
  /-- A command addressed to an encoder the device does not have (log 8). Raised by `State.perform`. Safe. -/
  | noSuchEncoder
deriving DecidableEq, Repr

/-- The outputs of a step that drives none of them (R15). -/
def Outputs.allLow : Outputs := { cw := false, acw := false, click := false }

/-- An encoder right after reset: STATE = START, LAST_TS = T_RESET, all outputs 0, the configuration as configured (R32). -/
def Encoder.afterReset (tReset : Nat) (cfg : EncoderConfig) : Encoder where
  cfg := cfg
  state := .start
  lastTs := tReset
  out := Outputs.allLow

/-- The device of configuration `c` at the end of the boot order of R153: configured, its pins made inputs, reset, the
interrupts registered, and no command or trigger yet. -/
def State.boot (c : DeviceConfig) : State where
  w := c.w
  tReset := c.tReset
  outMode := c.outMode
  encoders := c.encoders.map (Encoder.afterReset c.tReset)
  inputs := []
  sel := 0
  returned := .nothing
  emission := none

/-- The machine right after reset (R32, R150), for the configuration `DeviceConfig.standard` (log 1). -/
def State.reset : State := State.boot DeviceConfig.standard

/-- The configuration a state runs under. -/
def State.config (s : State) : DeviceConfig where
  w := s.w
  tReset := s.tReset
  outMode := s.outMode
  encoders := s.encoders.map (·.cfg)

end Sys2Proof.Machine
end

