-- ==== Sys2Proof/Machine/Flags.lean ====
section
/-! DEFINITION. The outputs, the block's flags: what a step drives on `out.cw`, `out.acw` and `out.click` (R27), and the
event read back from them (R69). -/

namespace Sys2Proof.Machine

/-- The outputs of an ADVANCE whose event is `ev`: `out.click` is 0 (R80, R84). -/
def Outputs.ofEvent (ev : RotationEvent) : Outputs where
  cw := ev == .clockwise
  acw := ev == .antiClockwise
  click := false

/-- The outputs of a CLICK: `out.cw` and `out.acw` are 0 (R100). -/
def Outputs.ofClick (accepted : Bool) : Outputs where
  cw := false
  acw := false
  click := accepted

/-- The RotationEvent that the pair `{out.acw, out.cw}` codes; the pair `11` is never driven (R69). -/
def Outputs.event (o : Outputs) : RotationEvent :=
  if o.cw then .clockwise else if o.acw then .antiClockwise else .none

end Sys2Proof.Machine
end

