-- ==== Sys2Proof/Machine/Operands.lean ====
section
/-! DEFINITION. The operands of the commands: the pin sample of ADVANCE (R62, R63) and the W-bit timestamp of CLICK (R66),
with the one arithmetic operation of the block, the modular difference (R13). -/

namespace Sys2Proof.Machine

/-- The CLK level of a sample, bit 1 (R12). -/
def Sample.clk (s : Sample) : Bool := s.getLsbD 1

/-- The DT level of a sample, bit 0 (R12). -/
def Sample.dt (s : Sample) : Bool := s.getLsbD 0

/-- The sample the environment assembles from two pin reads, `{CLK, DT}` (R63). -/
def sampleOf (clk dt : Bool) : Sample := BitVec.ofBool clk ++ BitVec.ofBool dt

/-- `a -_W b`, which is `(a - b) mod 2^W` (R13). -/
def subW (w a b : Nat) : Nat := (a + (2 ^ w - b % 2 ^ w)) % 2 ^ w

end Sys2Proof.Machine
end

