-- ==== Sys2Proof/Machine/Ops.lean ====
section
/-! DEFINITION. The shared operations over the registers: performing one command on the addressed encoder, the step in which
no trigger reaches an encoder, and reset. The block has no memory (R28, R40), and it takes no exception and returns from none
(R120, R122, R123), so this file has no memory operation and no exception entry. -/

namespace Sys2Proof.Machine

/-- A step in which no trigger reaches the encoder: the registers stay and all outputs are 0 (R115). -/
def Encoder.idle (x : Encoder) : Encoder := { x with out := Outputs.allLow }

/-- A step of the encoder with `rst = 1`: the configuration is kept (R150). -/
def Encoder.restart (tReset : Nat) (x : Encoder) : Encoder := Encoder.afterReset tReset x.cfg

/-- One command as one atomic step (R10, R47): the addressed encoder makes `f`, and no trigger reaches any other encoder in
that step (R30, R115; log 9). Every register write takes effect at the end of the step (R15). -/
def State.perform (f : Encoder → Encoder) (s : State) : Host.Outcome State Fault Refusal :=
  if s.sel < s.encoders.length then
    .next { s with encoders := s.encoders.mapIdx fun j x => if j = s.sel then f x else x.idle }
  else .refused .noSuchEncoder

/-- A step in which no trigger reaches any encoder (R115). -/
def State.idle (s : State) : State := { s with encoders := s.encoders.map Encoder.idle }

/-- A step with `rst = 1`: "All N_ENC instances share one reset" (R150). -/
def State.restart (s : State) : State :=
  { s with encoders := s.encoders.map (Encoder.restart s.tReset) }

end Sys2Proof.Machine
end

