-- ==== Sys2Proof/Machine/Click.lean ====
section
/-! DEFINITION. ClickDebouncer: the acceptance test and CLICK (R100 to R103). -/

namespace Sys2Proof.Machine

/-- The acceptance test `(now -_W LAST_TS) >= WINDOW`, unsigned (R101). -/
def Encoder.accepts (w now : Nat) (x : Encoder) : Bool :=
  decide (x.cfg.window ≤ subW w now x.lastTs)

/-- CLICK on one encoder: STATE is neither read nor written (R100), LAST_TS is written only on acceptance (R102, R103). -/
def Encoder.click (w now : Nat) (x : Encoder) : Encoder :=
  { x with
    lastTs := if x.accepts w now then now else x.lastTs
    out := Outputs.ofClick (x.accepts w now) }

/-- CLICK (R100). Whether the encoder has a switch is the environment's concern (R138, R142; log 11). -/
def execClick (now : Nat) (s : State) : Host.Outcome State Fault Refusal :=
  s.perform (Encoder.click s.w now)

end Sys2Proof.Machine
end

