-- ==== Sys2Proof/Machine/Idle.lean ====
section
/-! DEFINITION. The idle family: NOP (R115). The reserved op has no meaning and no constructor (R116). -/

namespace Sys2Proof.Machine

/-- NOP: all outputs 0, STATE and LAST_TS unchanged (R115). -/
def execNop (s : State) : Host.Outcome State Fault Refusal := s.perform Encoder.idle

end Sys2Proof.Machine
end

