-- ==== Sys2Proof/Machine/Codes.lean ====
section
/-! DEFINITION. The bit codes of R67 to R69: the row index in STATE, the 5-bit code of NS, the pair of event outputs. -/

namespace Sys2Proof.Machine

/-- The row index that STATE holds (R67). -/
def Row.code : Row → RowCode
  | .start => 0b000#3
  | .cw1   => 0b001#3
  | .cw2   => 0b010#3
  | .cw3   => 0b011#3
  | .acw1  => 0b100#3
  | .acw2  => 0b101#3
  | .acw3  => 0b110#3
  | .fault => 0b111#3

/-- The row of an index: "all 8 codes are used" (R67). -/
def Row.ofCode (c : RowCode) : Row :=
  match c.toFin with
  | 0 => .start
  | 1 => .cw1
  | 2 => .cw2
  | 3 => .cw3
  | 4 => .acw1
  | 5 => .acw2
  | 6 => .acw3
  | 7 => .fault

/-- The 5-bit code of NS, `{acw_fin, cw_fin, row[2:0]}` (R68). -/
def RotationState.code : RotationState → NextCode
  | .start     => 0x00#5
  | .cw1       => 0x01#5
  | .cw2       => 0x02#5
  | .cw3       => 0x03#5
  | .acw1      => 0x04#5
  | .acw2      => 0x05#5
  | .acw3      => 0x06#5
  | .fault     => 0x07#5
  | .cwFinish  => 0x08#5
  | .acwFinish => 0x10#5

/-- The code of a RotationEvent on the pair `{out.acw, out.cw}` (R69). -/
def RotationEvent.code : RotationEvent → BitVec 2
  | .none          => 0b00#2
  | .clockwise     => 0b01#2
  | .antiClockwise => 0b10#2

end Sys2Proof.Machine
end

