-- ==== Sys2Proof/Machine/Quadrature.lean ====
section
/-! DEFINITION. QuadratureDecoder: the transition table, the row and event functions, and ADVANCE (R80 to R84). -/

namespace Sys2Proof.Machine

/-- The cells of one row of the transition table, one per sample. -/
structure Cells where
  s00 : RotationState
  s01 : RotationState
  s10 : RotationState
  s11 : RotationState
deriving DecidableEq, Repr

/-- The cell of a sample's column. -/
def Cells.at (c : Cells) (s : Sample) : RotationState :=
  match s.toFin with
  | 0 => c.s00
  | 1 => c.s01
  | 2 => c.s10
  | 3 => c.s11

/-- The cell (START, `11`). The source contradicts itself on it and the table governs (90_conflicts.md C2, item I2;
log 10). -/
abbrev cellStart11 : RotationState := .start

/-- The cell (CW2, `00`), as `cellStart11` (C2, I2; log 10). -/
abbrev cellCw2On00 : RotationState := .start

/-- The cell (ACW2, `00`), as `cellStart11` (C2, I2; log 10). -/
abbrev cellAcw2On00 : RotationState := .start

/-- The transition table, "copied cell for cell" (R81); columns 00, 01, 10, 11. -/
def tableRow : Row → Cells
  --             s=00          s=01    s=10    s=11
  | .start => ⟨ .start,       .acw1,  .cw1,   cellStart11 ⟩
  | .cw1   => ⟨ .start,       .fault, .cw1,   .cw2 ⟩
  | .cw2   => ⟨ cellCw2On00,  .cw3,   .cw1,   .cw2 ⟩
  | .cw3   => ⟨ .cwFinish,    .cw3,   .fault, .cw2 ⟩
  | .acw1  => ⟨ .start,       .acw1,  .fault, .acw2 ⟩
  | .acw2  => ⟨ cellAcw2On00, .acw1,  .acw3,  .acw2 ⟩
  | .acw3  => ⟨ .acwFinish,   .fault, .acw3,  .acw2 ⟩
  | .fault => ⟨ .start,       .fault, .fault, .fault ⟩

/-- `T(row, s)` (R81). -/
def transition (r : Row) (s : Sample) : RotationState := (tableRow r).at s

/-- `row(NS) = NS[2:0]`: the row STATE takes after the step (R83). -/
def rowOf (ns : RotationState) : Row := Row.ofCode (ns.code.extractLsb' 0 3)

/-- `event(NS)` (R84). -/
def eventOf : RotationState → RotationEvent
  | .cwFinish  => .clockwise
  | .acwFinish => .antiClockwise
  | .start | .cw1 | .cw2 | .cw3 | .acw1 | .acw2 | .acw3 | .fault => .none

/-- ADVANCE on one encoder: LAST_TS is neither read nor written (R80). -/
def Encoder.advance (s : Sample) (x : Encoder) : Encoder :=
  { x with
    state := rowOf (transition x.state s)
    out := Outputs.ofEvent (eventOf (transition x.state s)) }

/-- ADVANCE (R80). -/
def execAdvance (sample : Sample) (s : State) : Host.Outcome State Fault Refusal :=
  s.perform (Encoder.advance sample)

end Sys2Proof.Machine
end

