-- ==== Sys2Proof/Machine/Dispatch.lean ====
section
/-! DEFINITION. exec: one arm per command. -/

namespace Sys2Proof.Machine

/-- What the addressed encoder's step does with a command (R61). -/
def exec (i : Instr) (s : State) : Host.Outcome State Fault Refusal :=
  match i with
  | .nop => Sys2Proof.Machine.execNop s
  | .advance p => Sys2Proof.Machine.execAdvance p s
  | .click now => Sys2Proof.Machine.execClick now s

end Sys2Proof.Machine
end

