-- ==== Sys2Proof/Machine/Environment.lean ====
section
/-! DEFINITION. The environment around the block, as R124 and R132 to R141 state its contract: which pin edge runs which handler,
which encoder a pin belongs to, and the record that is emitted. -/

namespace Sys2Proof.Machine

/-- The `edgeKind` of a pin interrupt (R124, R133). -/
inductive EdgeKind
  | anyChange
  | falling
deriving DecidableEq, Repr

/-- A level change `old` to `new` that an interrupt of this kind sees. -/
def EdgeKind.fires : EdgeKind → (old new : Bool) → Bool
  | .anyChange, old, new => old != new
  | .falling, old, new => old && !new

/-- The handler bound to a pin. -/
inductive Handler
  /-- dispatchRotation (R137). -/
  | rotation
  /-- dispatchClick (R138). -/
  | click
deriving DecidableEq, Repr

/-- One `registerInterrupt(pin, edgeKind, handler)` (R133). -/
structure Registration where
  pin     : Nat
  edge    : EdgeKind
  handler : Handler
deriving DecidableEq, Repr

/-- The interrupts of one encoder: "CLK/DT use ANY_CHANGE; SW uses FALLING" (R124). -/
def Pins.registrations (p : Pins) : List Registration :=
  { pin := p.clk, edge := .anyChange, handler := .rotation } ::
  { pin := p.dt, edge := .anyChange, handler := .rotation } ::
  p.sw.toList.map fun q => { pin := q, edge := .falling, handler := .click }

/-- Every interrupt of the device, registered at boot (R153 step 4). -/
def State.registrations (s : State) : List Registration :=
  s.encoders.flatMap fun x => Pins.registrations x.cfg.pins

/-- The handlers that a level change of `pin` runs (R124). -/
def State.handlersOf (s : State) (pin : Nat) (old new : Bool) : List Handler :=
  (s.registrations.filter fun r => r.pin == pin && r.edge.fires old new).map (·.handler)

/-- A handler run as a stimulus, with the environment's draws (pin levels, timestamp) it uses (R137, R138). -/
def Handler.stimulus (pin : Nat) (clk dt : Bool) (now : Nat) : Handler → Stimulus
  | .rotation => .rotation pin clk dt
  | .click => .click pin now

/-- The outside world changes the level of `pin` from `old` to `new`: the handlers this runs are put behind what is already
waiting (R124). `clk`, `dt` and `now` are what those handlers will read when they run, draws of the environment. -/
def State.pinEdge (pin : Nat) (old new clk dt : Bool) (now : Nat) (s : State) : State :=
  { s with inputs := s.inputs ++ (s.handlersOf pin old new).map (Handler.stimulus pin clk dt now) }

/-- The encoder claims the pin for rotation: it is its CLK or its DT pin (R137). -/
def Encoder.ownsRotation (pin : Nat) (x : Encoder) : Bool := x.cfg.pins.clk == pin || x.cfg.pins.dt == pin

/-- The encoder claims the pin for clicks: it has a switch and this is its SW pin (R138). -/
def Encoder.ownsClick (pin : Nat) (x : Encoder) : Bool := x.cfg.pins.sw == some pin

/-- The first encoder in declaration order that claims the pin for rotation (R134, R137). -/
def State.rotationOwner (s : State) (pin : Nat) : Option Nat := s.encoders.findIdx? (Encoder.ownsRotation pin)

/-- The first encoder in declaration order that claims the pin for clicks (R134, R138). -/
def State.clickOwner (s : State) (pin : Nat) : Option Nat := s.encoders.findIdx? (Encoder.ownsClick pin)

/-- What dispatchRotation returns after its ADVANCE (R137): the event if it is not NONE. -/
def State.rotationResult (s : State) : Returned :=
  match s.encoders[s.sel]? with
  | none => .nothing
  | some x =>
    match x.out.event with
    | .none => .nothing
    | .clockwise => .rotation x.cfg.id .clockwise
    | .antiClockwise => .rotation x.cfg.id .antiClockwise

/-- What dispatchClick returns after its CLICK (R138): the decision, accepted or not. -/
def State.clickResult (s : State) : Returned :=
  match s.encoders[s.sel]? with
  | none => .nothing
  | some x => .click x.cfg.id x.out.click

/-- The kinds of record the environment emits (R140, R141). -/
inductive Action
  | cw
  | acw
  | click
deriving DecidableEq, Repr

/-- The action code of the PACKED format (R140). -/
def Action.code : Action → Nat
  | .cw => 0
  | .acw => 1
  | .click => 2

/-- The suffix of the TEXT format (R140). -/
def Action.suffix : Action → String
  | .cw => "cw"
  | .acw => "acw"
  | .click => "s"

/-- What an encoder's outputs ask the environment to emit: a rotation event or an accepted click (R141). -/
def Outputs.action (o : Outputs) : Option Action :=
  if o.cw then some .cw else if o.acw then some .acw else if o.click then some .click else none

/-- The packed byte `0x10*encoderId + actionCode`; an id of 16 or more does not fit it (R140, log 3). -/
def packedByte (id : Nat) (a : Action) : BitVec 8 :=
  if id ≤ 15 then BitVec.ofNat 8 (0x10 * id + a.code) else Config.packedUnfit id a.code

/-- The text line `<id><suffix>` with the line terminator (R140, log 2). -/
def textLine (id : Nat) (a : Action) : String := Config.textIdFmt id ++ a.suffix ++ Config.textEol

/-- The record for an action of the encoder with this id (R140). -/
def emit (mode : OutMode) (id : Nat) (a : Action) : Emission :=
  match mode with
  | .text => .text (textLine id a)
  | .packed => .packed (packedByte id a)

/-- The record of an encoder's step, if it has one (R141). -/
def Encoder.emission (mode : OutMode) (x : Encoder) : Option Emission :=
  x.out.action.map (emit mode x.cfg.id)

/-- The end of a step: what the dispatch function returns, and the record the environment emits for the addressed encoder
(every other encoder drives only zeros, R15). -/
def State.report (r : Returned) (s : State) : State :=
  { s with returned := r, emission := s.encoders[s.sel]?.bind (Encoder.emission s.outMode) }

end Sys2Proof.Machine
end

