-- ==== Sys2Proof/Machine/Control.lean ====
section
/-! DEFINITION. What one step of the device does with the next stimulus: the ports of an encoder, or a trigger that the
Dispatcher turns into a command (R137 to R139). -/

namespace Sys2Proof.Machine

/-- Finish a step that answers a next state. -/
def mapNext (f : State → State) : Host.Outcome State Fault Refusal → Host.Outcome State Fault Refusal
  | .next t => .next (f t)
  | .fault r => .fault r
  | .refused r => .refused r

/-- The ports of encoder `k` carry `p`: reset overrides the command (R150), a reserved word is refused (R116), and any
other word is the command it decodes to (R61). -/
def issue (k : Nat) (p : Ports) (s : State) : Host.Outcome State Fault Refusal :=
  if p.rst then .next s.restart
  else
    match decode s.w p.cmd p.now with
    | .error .reservedOp => .refused .reservedCommand
    | .ok i => exec i { s with sel := k }

/-- A step in which nothing reaches the device (R115, R139). -/
def quietStep (s : State) : Host.Outcome State Fault Refusal := .next (s.idle.report .nothing)

/-- The environment drives the ports of one encoder; no dispatch function runs, so none returns anything. -/
def runDrive (k : Nat) (p : Ports) (s : State) : Host.Outcome State Fault Refusal :=
  mapNext (State.report .nothing) (issue k p s)

/-- `dispatchRotation(pin)` (R137): one ADVANCE with the fresh sample to the encoder that claims the pin. Its step has `rst = 0`:
a trigger never coincides with a reset (DESIGN CHOICE, log 17). -/
def dispatchRotation (pin : Nat) (clk dt : Bool) (s : State) : Host.Outcome State Fault Refusal :=
  match s.rotationOwner pin with
  | none => quietStep s
  | some k =>
    mapNext (fun t => t.report t.rotationResult)
      (issue k { cmd := advanceWord (sampleOf clk dt), now := 0, rst := false } s)

/-- `dispatchClick(pin, now)` (R138): one CLICK to the encoder whose switch the pin is. Its step has `rst = 0`: a trigger never
coincides with a reset (DESIGN CHOICE, log 17). -/
def dispatchClick (pin now : Nat) (s : State) : Host.Outcome State Fault Refusal :=
  match s.clickOwner pin with
  | none => quietStep s
  | some k =>
    mapNext (fun t => t.report t.clickResult) (issue k { cmd := 0b1000#4, now := now, rst := false } s)

/-- The step of one stimulus. -/
def runStimulus (x : Stimulus) (s : State) : Host.Outcome State Fault Refusal :=
  match x with
  | .drive k p => runDrive k p s
  | .rotation pin clk dt => dispatchRotation pin clk dt s
  | .click pin now => dispatchClick pin now s

/-- One step takes the next stimulus, in the order the environment gives them (R23, R48); with none there, no trigger
reaches any encoder (R115; log 6). -/
def runInputs (s : State) : Host.Outcome State Fault Refusal :=
  match s.inputs with
  | [] => quietStep s
  | x :: rest => runStimulus x { s with inputs := rest }

/-- The command word `w` on the ports of encoder 0 (R71: "Without a prefix, the command goes to instance 0") as the next
stimulus, with `now = 0` and `rst = 0`. -/
def State.feedWord (s : State) (w : Nat) : State :=
  { s with inputs := .drive 0 { cmd := BitVec.ofNat 4 w, now := 0, rst := false } :: s.inputs }

end Sys2Proof.Machine
end

