-- ==== Sys2Proof/Machine/Step.lean ====
section
/-! DEFINITION. One step of the device, and where its next command comes from. -/

namespace Sys2Proof.Machine

/-- One step: one command, reset or trigger, or nothing (R10). -/
def step (s : State) : Host.Outcome State Fault Refusal := runInputs s

/-- The state whose next step performs the command word `w` on encoder 0 (log 6). -/
def State.withFetchWord (s : State) (_nbits w : Nat) : State := s.feedWord w

end Sys2Proof.Machine
end

