-- ==== Sys2Proof/Machine/Mealy.lean ====
section
/-! DEFINITION. The eight-state Mealy machine of R94: the two finish states dropped and the events put on the transitions.
It is written from R90 to R94 and not from the 10-state table of Quadrature.lean, so that their agreement is a claim. No step
uses it. -/

namespace Sys2Proof.Machine

/-- The next-state function of the Mealy machine, sample by sample (R94): `00` always leads to START (R87); the other samples
move one step along the row's direction, stay, go back one step, or go to FAULT (R91). -/
def mealyNext (r : Row) (s : Sample) : Row :=
  if s = 0b00#2 then .start
  else match r with
    | .start => if s = 0b10#2 then .cw1 else if s = 0b01#2 then .acw1 else .start
    | .cw1   => if s = 0b11#2 then .cw2 else if s = 0b10#2 then .cw1 else .fault
    | .cw2   => if s = 0b01#2 then .cw3 else if s = 0b10#2 then .cw1 else .cw2
    | .cw3   => if s = 0b11#2 then .cw2 else if s = 0b01#2 then .cw3 else .fault
    | .acw1  => if s = 0b11#2 then .acw2 else if s = 0b01#2 then .acw1 else .fault
    | .acw2  => if s = 0b10#2 then .acw3 else if s = 0b01#2 then .acw1 else .acw2
    | .acw3  => if s = 0b11#2 then .acw2 else if s = 0b10#2 then .acw3 else .fault
    | .fault => .fault

/-- The output function of the Mealy machine: "its only transitions with an output are CW3 on `00` ... and ACW3 on `00`" (R94). -/
def mealyEvent (r : Row) (s : Sample) : RotationEvent :=
  if s = 0b00#2 ∧ r = .cw3 then .clockwise
  else if s = 0b00#2 ∧ r = .acw3 then .antiClockwise
  else .none

/-- The row the Mealy machine is in after a list of samples. -/
def mealyRun (r : Row) : List Sample → Row
  | [] => r
  | s :: ss => mealyRun (mealyNext r s) ss

/-- The events the Mealy machine emits over a list of samples, one per sample. -/
def mealyEvents (r : Row) : List Sample → List RotationEvent
  | [] => []
  | s :: ss => mealyEvent r s :: mealyEvents (mealyNext r s) ss

end Sys2Proof.Machine
end

