-- ==== Sys2Proof/Safety.lean ====
section
/-! DEFINITION. What counts as a good state and a legal environment, and runs of command streams: the terms claims use. -/

namespace Sys2Proof.Machine

/-- At most one of the three outputs is 1 (R27). -/
abbrev Outputs.AtMostOne (o : Outputs) : Prop :=
  ¬(o.cw = true ∧ o.acw = true) ∧ ¬(o.cw = true ∧ o.click = true) ∧ ¬(o.acw = true ∧ o.click = true)

/-- The invariant of the device: the configuration is within R8 and R140, and every encoder's LAST_TS is a W-bit value
(R24) and drives at most one output (R27). -/
abbrev State.Inv (s : State) : Prop :=
  s.config.wellFormed = true ∧ ∀ x ∈ s.encoders, x.lastTs < 2 ^ s.w ∧ x.out.AtMostOne

/-- A stimulus a device of `n` encoders performs, within the environment's duties or not: no reserved word (R116) and no
command to an encoder the device does not have (log 8). With `rst` the command word is ignored (R150). -/
def Stimulus.runs (n : Nat) : Stimulus → Bool
  | .drive k p => p.rst || (decide (k < n) && p.cmd.extractLsb' 2 2 != 0b11#2)
  | .rotation _ _ _ => true
  | .click _ _ => true

/-- The device performs all that is still to come. -/
abbrev State.RunnableInputs (s : State) : Prop := ∀ x ∈ s.inputs, x.runs s.encoders.length = true

/-- A command the environment may issue to an encoder of a device of timestamp width `w` (R142): CLICK only to an encoder
with a switch; ADVANCE with any sample, and NOP, to every encoder. -/
def mayIssue (e : EncoderConfig) : Instr → Bool
  | .nop => true
  | .advance _ => true
  | .click _ => e.pins.hasSw

/-- A move of the environment that R142's table allows toward a device of configuration `c`: a reset in any step (R150: the
command word is then ignored); with no reset, no reserved word, only a command its encoder may be sent, and with a CLICK a
W-bit `now`. A command on the ports names no pin, so the duty to send an ADVANCE only to the pin's owner does not bear on it
(DEDUCED, log 18); a trigger meets it (R137). -/
def Stimulus.legal (c : DeviceConfig) : Stimulus → Bool
  | .drive k p =>
    p.rst ||
      match c.encoders[k]?, decode c.w p.cmd p.now with
      | some e, .ok i => mayIssue e i && (p.cmd.extractLsb' 2 2 != 0b10#2 || fitsW c.w p.now)
      | _, _ => false
  | .rotation _ _ _ => true
  | .click _ now => fitsW c.w now

/-- All that is still to come from the environment is within its duties toward the block's steps (R142). -/
abbrev State.LegalInputs (s : State) : Prop := ∀ x ∈ s.inputs, x.legal s.config = true

/-- The environment's duties (R142): the moves still to come, and a configuration within R8 and R140 with distinct pins (R135).
The other duties hold of every state of the model: the reset before the first command (log 12), commands to one encoder one
after another (R126: `inputs` is a list), and a configuration that stays constant (StepKeepsConfiguration states it). -/
abbrev State.LegalEnvironment (s : State) : Prop :=
  s.config.wellFormed = true ∧ s.config.pinsDistinct = true ∧ s.LegalInputs

/-- The registers of an encoder: "exactly STATE and LAST_TS" (R22). -/
def Encoder.regs (x : Encoder) : Row × Nat := (x.state, x.lastTs)

/-- Everything outside encoder `k`'s own registers and outputs is as before: every other encoder keeps its registers and its
configuration and drives zeros (R15, R30), and the parameters and the environment's side of the state are unchanged. -/
structure State.FrameOutside (k : Nat) (s t : State) : Prop where
  length   : t.encoders.length = s.encoders.length
  others   : ∀ (j : Nat) (x : Encoder), j ≠ k → s.encoders[j]? = some x →
    t.encoders[j]? = some { cfg := x.cfg, state := x.state, lastTs := x.lastTs,
                            out := { cw := false, acw := false, click := false } }
  w        : t.w = s.w
  tReset   : t.tReset = s.tReset
  outMode  : t.outMode = s.outMode
  inputs   : t.inputs = s.inputs
  sel      : t.sel = s.sel
  returned : t.returned = s.returned
  emission : t.emission = s.emission

/-- A stream of commands, each with the encoder it goes to, performed in order (R48). -/
def runCommands : List (Nat × Instr) → State → Host.Outcome State Fault Refusal
  | [], s => .next s
  | (k, i) :: cs, s =>
    match exec i { s with sel := k } with
    | .next t => runCommands cs t
    | .fault r => .fault r
    | .refused r => .refused r

/-- What encoder `k` drives in its own steps of a stream, one entry per command to it. -/
def ownOutputs (k : Nat) : List (Nat × Instr) → State → List Outputs
  | [], _ => []
  | (j, i) :: cs, s =>
    match exec i { s with sel := j } with
    | .next t =>
      if j = k then (t.encoders[k]?.map (·.out)).toList ++ ownOutputs k cs t else ownOutputs k cs t
    | .fault _ => []
    | .refused _ => []

/-- One ADVANCE to encoder `k` per sample. -/
def advances (k : Nat) (ss : List Sample) : List (Nat × Instr) := ss.map fun s => (k, .advance s)

/-- STATE of encoder `k` after a stream. -/
def stateAfter (k : Nat) (cs : List (Nat × Instr)) (s : State) : Option Row :=
  match runCommands cs s with
  | .next t => t.encoders[k]?.map (·.state)
  | .fault _ => none
  | .refused _ => none

/-- LAST_TS of encoder `k` after a stream. -/
def lastTsAfter (k : Nat) (cs : List (Nat × Instr)) (s : State) : Option Nat :=
  match runCommands cs s with
  | .next t => t.encoders[k]?.map (·.lastTs)
  | .fault _ => none
  | .refused _ => none

/-- The transition table as 5-bit NS codes, R81's second table copied cell for cell: rows by STATE, columns by sample. -/
def nextCodeTable : List (List NextCode) :=
  [ [0x00#5, 0x04#5, 0x01#5, 0x00#5],
    [0x00#5, 0x07#5, 0x01#5, 0x02#5],
    [0x00#5, 0x03#5, 0x01#5, 0x02#5],
    [0x08#5, 0x03#5, 0x07#5, 0x02#5],
    [0x00#5, 0x04#5, 0x07#5, 0x05#5],
    [0x00#5, 0x04#5, 0x06#5, 0x05#5],
    [0x10#5, 0x07#5, 0x06#5, 0x05#5],
    [0x00#5, 0x07#5, 0x07#5, 0x07#5] ]

/-- The cell of R81's second table for the code in STATE and a sample; both index an entry that is there. -/
def nextCode (c : RowCode) (s : Sample) : NextCode := (nextCodeTable.getD c.toNat []).getD s.toNat 0

/-- Events lost when sample number `i` of a stream of `n` clean full cycles that starts at START is dropped (R155): none for the
leading `00`, one for the final `00`, two for a `00` between two cycles, one for any other sample. -/
def lostEvents (n i : Nat) : Nat :=
  if i = 0 then 0 else if i = 4 * n then 1 else if i % 4 = 0 then 2 else 1

/-- The clockwise cycle without its last sample (R82): `00, 10, 11, 01`. -/
def clockwiseLap : List Sample := [0b00#2, 0b10#2, 0b11#2, 0b01#2]

/-- The anticlockwise cycle without its last sample (R82): `00, 01, 11, 10`. -/
def antiClockwiseLap : List Sample := [0b00#2, 0b01#2, 0b11#2, 0b10#2]

/-- A stream of `n` clean full cycles: `n` laps and the final `00` (R82, R155). -/
def laps (lap : List Sample) : Nat → List Sample
  | 0 => [0b00#2]
  | n + 1 => lap ++ laps lap n

end Sys2Proof.Machine
end

