-- ==== Sys2Proof/Certificates/Slice0/Obligations.lean ====
section
/-! DEFINITION. The statements about the model, each with the rule of spec/ it formalises. `s.encoders[k]? = some x` reads
"the device has an encoder `k`, and it is `x`". -/

open Sys2Proof Sys2Proof.Machine

/-! ## Reset -/

/-- R32: after reset STATE is START (code `000`), LAST_TS is T_RESET, the outputs are 0 and the configuration is the configured
one, for every configuration a device can be booted with. (That no trigger waits and no encoder is addressed yet is the
model's own, logs 5 and 6.) -/
def Obligations.ResetLeavesStartAndTReset : Prop :=
  ∀ (c : DeviceConfig) (k : Nat) (e : EncoderConfig), c.encoders[k]? = some e →
    (State.boot c).config = c ∧
    ∃ x : Encoder, (State.boot c).encoders[k]? = some x ∧ x.cfg = e ∧ x.state = .start ∧ x.state.code = 0b000#3 ∧
      x.lastTs = c.tReset ∧ x.out = { cw := false, acw := false, click := false }

/-- R150: a step with `rst = 1` ignores `cmd` and `now`, puts START and T_RESET in every encoder, drives zeros and keeps the
configuration. That `rst` on the ports of one encoder, or of an encoder the device does not have, resets every encoder is the model's
reading (log 7), and that such a step returns and emits nothing is the model's way to show what came back (log 5). -/
def Obligations.ResetStepOverridesCommand : Prop :=
  ∀ (s : State) (k : Nat) (p : Ports) (rest : List Stimulus), s.inputs = .drive k p :: rest → p.rst = true →
    ∃ t, step s = .next t ∧
      t.encoders.length = s.encoders.length ∧
      (∀ (j : Nat) (x : Encoder), s.encoders[j]? = some x →
        t.encoders[j]? = some { cfg := x.cfg, state := .start, lastTs := s.tReset,
                                out := { cw := false, acw := false, click := false } }) ∧
      t.config = s.config ∧ t.inputs = rest ∧ t.returned = .nothing ∧ t.emission = none

/-- R109: the first CLICK to an encoder after a reset, whatever other commands come between (ADVANCE and NOP to it, any command to the
others), is accepted if and only if `(now -_W T_RESET) >= WINDOW`, for every T_RESET. (That the reset may be on another encoder's
ports is the model's reading, log 7.) -/
def Obligations.FirstClickAfterResetUsesTReset : Prop :=
  ∀ (s r r' : State) (k j : Nat) (p : Ports) (rest : List Stimulus) (cs : List (Nat × Instr)) (x : Encoder) (now : Nat),
    s.inputs = .drive k p :: rest → p.rst = true → step s = .next r → s.encoders[j]? = some x →
    runCommands cs r = .next r' → (∀ c ∈ cs, ∀ n, c ≠ (j, .click n)) →
    ∃ t y, exec (.click now) { r' with sel := j } = .next t ∧ t.encoders[j]? = some y ∧
      (y.out.click = true ↔ (x.cfg.window : Int) ≤ ((now : Int) - s.tReset) % 2 ^ s.w)

/-! ## Encoding -/

/-- R61, R62, R64: the words of the command table, written out bit by bit. -/
def Obligations.TableWordsDecode : Prop :=
  decode 32 0b0000#4 9 = .ok .nop ∧ decode 32 0b0011#4 9 = .ok .nop ∧
  decode 32 0b0100#4 9 = .ok (.advance 0b00#2) ∧ decode 32 0b0101#4 9 = .ok (.advance 0b01#2) ∧
  decode 32 0b0110#4 9 = .ok (.advance 0b10#2) ∧ decode 32 0b0111#4 9 = .ok (.advance 0b11#2) ∧
  decode 32 0b1000#4 1100 = .ok (.click 1100) ∧ decode 32 0b1011#4 1100 = .ok (.click 1100) ∧
  decode 32 0b1100#4 9 = .error .reservedOp ∧ decode 32 0b1111#4 9 = .error .reservedOp

/-- Decoding the encoding of a well-formed command gives it back, with every operand at every value (R61, R62, R70, R71). -/
def Obligations.DecodeOfEncode : Prop :=
  ∀ (w : Nat) (i : Instr), i.wellFormed w = true → decode w (encode i).1 (encode i).2 = .ok i

/-- What the decoder reads is well formed, its word has the command's op field, and encoding it gives the word back but for the
bits the command ignores (R61, R64). (That a decoded CLICK is well formed, and carries `now mod 2^w`, for a number of `2^w` or more is
the model's reading of the port, log 4.) -/
def Obligations.EncodeOfDecode : Prop :=
  ∀ (w : Nat) (cmd : CmdWord) (now : Nat) (i : Instr), decode w cmd now = .ok i →
    i.wellFormed w = true ∧ (encode i).1.extractLsb' 2 2 = cmd.extractLsb' 2 2 ∧
    (cmd.extractLsb' 2 2 = 0b01#2 → (encode i).1 = cmd) ∧
    (cmd.extractLsb' 2 2 = 0b10#2 → (encode i).2 = now % 2 ^ w)

/-- R64: NOP and CLICK ignore `cmd[1:0]`, so `0000` to `0011` are all NOP and `1000` to `1011` all CLICK, and only CLICK reads
`now`. (That the operand is `now mod 2^w` also for a number of `2^w` or more is the model's reading of the port, log 4.) -/
def Obligations.IgnoredBitsDoNotMatter : Prop :=
  ∀ (w : Nat) (a : Sample) (now now' : Nat),
    decode w (0b00#2 ++ a) now = .ok .nop ∧
    decode w (0b10#2 ++ a) now = .ok (.click (now % 2 ^ w)) ∧
    decode w (0b01#2 ++ a) now = decode w (0b01#2 ++ a) now'

/-- R116: a reserved word is refused, whichever encoder it is sent to, and the refusal stands for the whole run. -/
def Obligations.ReservedWordRefused : Prop :=
  ∀ (s : State) (k : Nat) (p : Ports) (rest : List Stimulus), s.inputs = .drive k p :: rest → p.rst = false →
    p.cmd.extractLsb' 2 2 = 0b11#2 →
    step s = .refused .reservedCommand ∧ ∀ n, Host.Core.run core (n + 1) s = .refused .reservedCommand

/-! ## The step -/

/-- A step runs the decoded command: where the next stimulus drives encoder `k` with a word that decodes to `i`, the step is
`exec i` addressed to `k`, with that stimulus consumed, and then the report of what the environment gets (no dispatch function
ran, and the record of the encoder's outputs). The list of stimuli is the model's (log 6), so are the fields that show what a step
returned and emitted (log 5), and that a command put on the ports directly has a record too is its reading (log 16). -/
def Obligations.StepRunsDecodedCommand : Prop :=
  ∀ (s : State) (k : Nat) (p : Ports) (rest : List Stimulus) (i : Instr), s.inputs = .drive k p :: rest →
    p.rst = false → decode s.w p.cmd p.now = .ok i →
    step s = mapNext (State.report .nothing) (exec i { s with inputs := rest, sel := k })

/-- A word put before the next step is the command that step performs, on encoder 0, with the report of what the environment gets.
The load of a word (log 6), the fields that show what a step returned and emitted (log 5), and a record for a command put on the ports
directly (log 16) are the model's. -/
def Obligations.StepRunsFetchedWord : Prop :=
  ∀ (s : State) (n v : Nat) (i : Instr), v < 2 ^ 4 → decode s.w (BitVec.ofNat 4 v) 0 = .ok i →
    step (s.withFetchWord n v) = mapNext (State.report .nothing) (exec i { s with sel := 0 })

/-- With nothing there, no trigger reaches any encoder (R115's step; that an empty input list is such a step is log 6). -/
def Obligations.EmptyInputsIsAnIdleStep : Prop :=
  ∀ s : State, s.inputs = [] →
    ∃ t, step s = .next t ∧ t.encoders.length = s.encoders.length ∧
      (∀ (j : Nat) (x : Encoder), s.encoders[j]? = some x →
        t.encoders[j]? = some { x with out := { cw := false, acw := false, click := false } }) ∧
      t.config = s.config ∧ t.inputs = [] ∧ t.sel = s.sel ∧ t.returned = .nothing ∧ t.emission = none

/-- One step takes exactly one stimulus, and no command changes which one comes next (R10, R23). -/
def Obligations.StepTakesOneStimulus : Prop :=
  ∀ s t : State, step s = .next t → t.inputs = s.inputs.tail

/-- No step answers a fault (R120), and a step that stops does so for a reserved word (R116) or, the model's own stop, for a
command to an encoder the device does not have (log 8). -/
def Obligations.StepStopsOnlyByName : Prop :=
  ∀ s : State, (∀ r, step s ≠ .fault r) ∧
    ∀ r, step s = .refused r →
      ∃ k p rest, s.inputs = .drive k p :: rest ∧ p.rst = false ∧
        ((r = .reservedCommand ∧ p.cmd.extractLsb' 2 2 = 0b11#2) ∨
         (r = .noSuchEncoder ∧ s.encoders.length ≤ k ∧ p.cmd.extractLsb' 2 2 ≠ 0b11#2))

/-- The model's own stop (log 8): every command addressed to an encoder the device does not have is refused by name. -/
def Obligations.AbsentEncoderRefused : Prop :=
  ∀ (i : Instr) (s : State), s.encoders.length ≤ s.sel → exec i s = .refused .noSuchEncoder

/-! ## NOP, ADVANCE and CLICK: result, frame and completion -/

/-- R115: the words `00xx` are NOP; NOP completes on every encoder, writes no register and drives zeros. -/
def Obligations.NopChangesNothing : Prop :=
  ∀ (s : State) (x : Encoder), s.encoders[s.sel]? = some x →
    (∀ (a : Sample) (now : Nat), decode s.w (0b00#2 ++ a) now = .ok .nop) ∧
    ∃ t, exec .nop s = .next t ∧ s.FrameOutside s.sel t ∧
      t.encoders[s.sel]? = some { cfg := x.cfg, state := x.state, lastTs := x.lastTs,
                                  out := { cw := false, acw := false, click := false } }

/-- R80 over the table of R81: the words `01ss` are ADVANCE with sample `ss`; ADVANCE completes on every encoder for every sample; STATE takes `NS[2:0]`, `out.cw` is
`NS[3]`, `out.acw` is `NS[4]`, `out.click` is 0, and LAST_TS and everything outside the encoder is unchanged. Three cells of the
table, (START,11), (CW2,00) and (ACW2,00), are the ones the source contradicts itself on (C2, I2, log 10). -/
def Obligations.AdvanceFollowsTransitionTable : Prop :=
  ∀ (s : State) (x : Encoder) (p : Sample), s.encoders[s.sel]? = some x →
    (∀ now : Nat, decode s.w (0b01#2 ++ p) now = .ok (.advance p)) ∧
    ∃ t y, exec (.advance p) s = .next t ∧ s.FrameOutside s.sel t ∧ t.encoders[s.sel]? = some y ∧
      y.state.code = (nextCode x.state.code p).extractLsb' 0 3 ∧
      y.out.cw = (nextCode x.state.code p).getLsbD 3 ∧
      y.out.acw = (nextCode x.state.code p).getLsbD 4 ∧
      y.out.click = false ∧ y.lastTs = x.lastTs ∧ y.cfg = x.cfg

/-- R100 to R103: the words `10xx` are CLICK with the W-bit `now` on its port; CLICK completes on every encoder for every `now`; it is accepted exactly when
`(now - LAST_TS) mod 2^W >= WINDOW`, and only then LAST_TS becomes `now`; STATE and everything outside the encoder is unchanged. -/
def Obligations.ClickAcceptsAfterWindow : Prop :=
  ∀ (s : State) (x : Encoder) (now : Nat), s.encoders[s.sel]? = some x →
    (now < 2 ^ s.w → ∀ a : Sample, decode s.w (0b10#2 ++ a) now = .ok (.click now)) ∧
    ((x.cfg.window : Int) ≤ ((now : Int) - x.lastTs) % 2 ^ s.w →
      ∃ t, exec (.click now) s = .next t ∧ s.FrameOutside s.sel t ∧
        t.encoders[s.sel]? = some { cfg := x.cfg, state := x.state, lastTs := now,
                                    out := { cw := false, acw := false, click := true } }) ∧
    (((now : Int) - x.lastTs) % 2 ^ s.w < x.cfg.window →
      ∃ t, exec (.click now) s = .next t ∧ s.FrameOutside s.sel t ∧
        t.encoders[s.sel]? = some { cfg := x.cfg, state := x.state, lastTs := x.lastTs,
                                    out := { cw := false, acw := false, click := false } })

/-- R30: a command sent to one encoder never changes STATE, LAST_TS or the configuration of another, and never reads them: what it does
to its own encoder is the same whatever the others hold. -/
def Obligations.CommandsLeaveOtherEncodersAlone : Prop :=
  ∀ (i : Instr) (s t : State), exec i s = .next t →
    (∀ (j : Nat) (x : Encoder), j ≠ s.sel → s.encoders[j]? = some x →
      ∃ y, t.encoders[j]? = some y ∧ y.state = x.state ∧ y.lastTs = x.lastTs ∧ y.cfg = x.cfg) ∧
    ∀ s' : State, s'.w = s.w → s'.sel = s.sel → s'.encoders[s.sel]? = s.encoders[s.sel]? →
      ∃ t', exec i s' = .next t' ∧ t'.encoders[s.sel]? = t.encoders[s.sel]?

/-! ## QuadratureDecoder -/

/-- R83, R84: `row` and `event` on each of the ten rotation states, with the event's code on `{out.acw, out.cw}`; the sample after either
finish leads to START, ACW1 or CW1 (this rests on the cell (START,11), log 10). -/
def Obligations.RowAndEventOfEachRotationState : Prop :=
  rowOf .cwFinish = .start ∧ rowOf .acwFinish = .start ∧ rowOf .start = .start ∧ rowOf .cw1 = .cw1 ∧ rowOf .cw2 = .cw2 ∧
  rowOf .cw3 = .cw3 ∧ rowOf .acw1 = .acw1 ∧ rowOf .acw2 = .acw2 ∧ rowOf .acw3 = .acw3 ∧ rowOf .fault = .fault ∧
  (∀ p : Sample, transition (rowOf .cwFinish) p = .start ∨ transition (rowOf .cwFinish) p = .acw1 ∨
    transition (rowOf .cwFinish) p = .cw1) ∧
  ∀ ns : RotationState, (rowOf ns).code = ns.code.extractLsb' 0 3 ∧ (eventOf ns).code = ns.code.extractLsb' 3 2 ∧
    (eventOf ns = .clockwise ↔ ns = .cwFinish) ∧ (eventOf ns = .antiClockwise ↔ ns = .acwFinish)

/-- R87: after any ADVANCE with sample `00`, STATE is START. (It rests on the cells (CW2,00) and (ACW2,00), log 10.) -/
def Obligations.IdleSampleSynchronises : Prop :=
  ∀ (s : State) (x : Encoder), s.encoders[s.sel]? = some x →
    ∃ t y, exec (.advance 0b00#2) s = .next t ∧ t.encoders[s.sel]? = some y ∧ y.state = .start

/-- R88: an event is emitted only on `00`: CLOCKWISE exactly from CW3, ANTI_CLOCKWISE exactly from ACW3; in particular no step into
FAULT emits one. -/
def Obligations.EventsOnlyFromThirdRowOnIdle : Prop :=
  ∀ (s : State) (x : Encoder) (p : Sample), s.encoders[s.sel]? = some x →
    ∃ t y, exec (.advance p) s = .next t ∧ t.encoders[s.sel]? = some y ∧
      (y.out.cw = true ↔ x.state = .cw3 ∧ p = 0b00#2) ∧ (y.out.acw = true ↔ x.state = .acw3 ∧ p = 0b00#2) ∧
      (y.state = .fault → y.out = { cw := false, acw := false, click := false })

/-- R89: a second ADVANCE with the same sample leaves STATE unchanged and emits nothing, also after one that emitted an event.
(It rests on the cells (CW2,00) and (ACW2,00), log 10.) -/
def Obligations.RepeatedSampleHasNoEffect : Prop :=
  ∀ (s : State) (x : Encoder) (p : Sample), s.encoders[s.sel]? = some x →
    ∃ t y u z, exec (.advance p) s = .next t ∧ t.encoders[s.sel]? = some y ∧
      exec (.advance p) t = .next u ∧ u.encoders[s.sel]? = some z ∧
      z = { y with out := { cw := false, acw := false, click := false } }

/-- R90: the row STATE is in after an ADVANCE tells the sample of that step. (The START line rests on the cell
(START,11), and the FAULT line on (CW2,00) and (ACW2,00), log 10.) -/
def Obligations.RowTellsLastSample : Prop :=
  ∀ (s : State) (x : Encoder) (p : Sample), s.encoders[s.sel]? = some x →
    ∃ t y, exec (.advance p) s = .next t ∧ t.encoders[s.sel]? = some y ∧
      (y.state = .cw1 → p = 0b10#2) ∧ (y.state = .cw2 → p = 0b11#2) ∧ (y.state = .cw3 → p = 0b01#2) ∧
      (y.state = .acw1 → p = 0b01#2) ∧ (y.state = .acw2 → p = 0b11#2) ∧ (y.state = .acw3 → p = 0b10#2) ∧
      (y.state = .start → p = 0b00#2 ∨ (p = 0b11#2 ∧ x.state = .start)) ∧
      (y.state = .fault → p = 0b01#2 ∨ p = 0b10#2 ∨ p = 0b11#2)

/-- R86: from FAULT, no stream of samples without `00` leaves FAULT or emits an event, and then one `00` gives START, again with no
event. -/
def Obligations.FaultHoldsUntilIdleSample : Prop :=
  ∀ (s : State) (k : Nat) (x : Encoder) (ss : List Sample), s.encoders[k]? = some x → x.state = .fault →
    0b00#2 ∉ ss →
    stateAfter k (advances k ss) s = some .fault ∧
    stateAfter k (advances k (ss ++ [0b00#2])) s = some .start ∧
    ∀ o ∈ ownOutputs k (advances k (ss ++ [0b00#2])) s, o = { cw := false, acw := false, click := false }

/-- R92: a reversal at the `11` position does not switch direction; half a detent and back from START emits nothing and ends in
START. -/
def Obligations.ReversalKeepsDirection : Prop :=
  ∀ (s : State) (k : Nat) (x : Encoder), s.encoders[k]? = some x →
    (x.state = .cw2 → stateAfter k (advances k [0b10#2]) s = some .cw1) ∧
    (x.state = .acw2 → stateAfter k (advances k [0b01#2]) s = some .acw1) ∧
    (x.state = .start →
      stateAfter k (advances k [0b00#2, 0b10#2, 0b11#2, 0b10#2, 0b00#2]) s = some .start ∧
      ∀ o ∈ ownOutputs k (advances k [0b00#2, 0b10#2, 0b11#2, 0b10#2, 0b00#2]) s,
        o = { cw := false, acw := false, click := false })

/-- R93: if the last of a list of samples emits an event, that sample is `00`, and the samples since STATE was last START hold the
three positions of the cycle in order: `10`, `11`, `01` for CLOCKWISE, `01`, `11`, `10` for ANTI_CLOCKWISE. -/
def Obligations.EventNeedsFullCycle : Prop :=
  ∀ (s : State) (k : Nat) (x : Encoder) (ss : List Sample) (p : Sample) (o : Outputs),
    s.encoders[k]? = some x → x.state = .start →
    (ownOutputs k (advances k (ss ++ [p])) s).getLast? = some o → o.cw = true ∨ o.acw = true →
    p = 0b00#2 ∧ ∃ before since, ss = before ++ since ∧
      stateAfter k (advances k before) s = some .start ∧
      (∀ q, q ≠ [] → q <+: since → stateAfter k (advances k (before ++ q)) s ≠ some .start) ∧
      (o.cw = true → [0b10#2, 0b11#2, 0b01#2].Sublist since) ∧
      (o.acw = true → [0b01#2, 0b11#2, 0b10#2].Sublist since)

/-- R94: over every list of samples and from every row, the machine goes through the STATE sequence of the eight-state Mealy machine
and drives its events. (It rests on the cells (START,11), (CW2,00) and (ACW2,00), log 10.) -/
def Obligations.MealyMachineIsEquivalent : Prop :=
  ∀ (s : State) (k : Nat) (x : Encoder) (ss : List Sample), s.encoders[k]? = some x →
    stateAfter k (advances k ss) s = some (mealyRun x.state ss) ∧
    ownOutputs k (advances k ss) s = (mealyEvents x.state ss).map fun e =>
      { cw := e == .clockwise, acw := e == .antiClockwise, click := false }

/-- R95: every row is reached from START by some samples, and the shortest that reach FAULT are two, for example `10, 01`.
(That one sample never does rests on the cell (START,11), log 10.) -/
def Obligations.EveryRowIsReachable : Prop :=
  ∀ (s : State) (k : Nat) (x : Encoder), s.encoders[k]? = some x → x.state = .start →
    (∀ r : Row, ∃ ss, stateAfter k (advances k ss) s = some r) ∧
    stateAfter k (advances k [0b10#2, 0b01#2]) s = some .fault ∧
    ∀ ss, stateAfter k (advances k ss) s = some .fault → 2 ≤ ss.length

/-- R152: from START, no list of fewer than four samples emits an event, and `10, 11, 01, 00` emits one, CLOCKWISE. -/
def Obligations.EventNeedsFourSamples : Prop :=
  ∀ (s : State) (k : Nat) (x : Encoder), s.encoders[k]? = some x → x.state = .start →
    (∀ ss, ss.length < 4 →
      ∀ o ∈ ownOutputs k (advances k ss) s, o = { cw := false, acw := false, click := false }) ∧
    (ownOutputs k (advances k [0b10#2, 0b11#2, 0b01#2, 0b00#2]) s).getLast? =
      some { cw := true, acw := false, click := false }

/-- R155, one dropped sample: from a stream of `n` clean full clockwise cycles that starts at START, dropping sample number `i`
loses exactly `lostEvents n i` CLOCKWISE events and never produces an ANTI_CLOCKWISE one; likewise anticlockwise.
(It rests on the cells (START,11), (CW2,00) and (ACW2,00), log 10.) -/
def Obligations.OneMissedSampleLosesAtMostTwoTurns : Prop :=
  ∀ (s : State) (k : Nat) (x : Encoder) (n i : Nat), s.encoders[k]? = some x → x.state = .start → i ≤ 4 * n →
    ((ownOutputs k (advances k ((laps clockwiseLap n).eraseIdx i)) s).countP (·.cw) + lostEvents n i = n ∧
     (ownOutputs k (advances k ((laps clockwiseLap n).eraseIdx i)) s).countP (·.acw) = 0) ∧
    ((ownOutputs k (advances k ((laps antiClockwiseLap n).eraseIdx i)) s).countP (·.acw) + lostEvents n i = n ∧
     (ownOutputs k (advances k ((laps antiClockwiseLap n).eraseIdx i)) s).countP (·.cw) = 0)

/-! ## ClickDebouncer -/

/-- R104: with an elapsed time below `2^W` the timer's rollover does not fool the test: the click is accepted exactly when the true
elapsed time is at least WINDOW. -/
def Obligations.RolloverDoesNotFoolTheTest : Prop :=
  ∀ (s : State) (x : Encoder) (elapsed : Nat), s.encoders[s.sel]? = some x → elapsed < 2 ^ s.w →
    ((((x.lastTs + elapsed) % 2 ^ s.w : Nat) : Int) - x.lastTs) % 2 ^ s.w = elapsed ∧
    ∃ t y, exec (.click ((x.lastTs + elapsed) % 2 ^ s.w)) s = .next t ∧ t.encoders[s.sel]? = some y ∧
      (y.out.click = true ↔ x.cfg.window ≤ elapsed)

/-- R108: a click `k * 2^W + e` units after the last accepted one, with `k >= 1` and `e < WINDOW`, is rejected. -/
def Obligations.WholePeriodsAreAliased : Prop :=
  ∀ (s : State) (x : Encoder) (k e : Nat), s.encoders[s.sel]? = some x → x.cfg.window < 2 ^ s.w → 1 ≤ k →
    e < x.cfg.window →
    ∃ t, exec (.click ((x.lastTs + (k * 2 ^ s.w + e)) % 2 ^ s.w)) s = .next t ∧
      t.encoders[s.sel]? = some { x with out := { cw := false, acw := false, click := false } }

/-- R105, R106: with WINDOW = 0 every CLICK is accepted and writes LAST_TS; with `now = LAST_TS` a CLICK is accepted if and only if
WINDOW = 0. -/
def Obligations.ZeroWindowAndSameTimestamp : Prop :=
  ∀ (s : State) (x : Encoder) (now : Nat), s.encoders[s.sel]? = some x →
    (x.cfg.window = 0 → ∃ t y, exec (.click now) s = .next t ∧ t.encoders[s.sel]? = some y ∧
      y.out.click = true ∧ y.lastTs = now) ∧
    (∃ t y, exec (.click x.lastTs) s = .next t ∧ t.encoders[s.sel]? = some y ∧
      (y.out.click = true ↔ x.cfg.window = 0))

/-- R107: after a click accepted at `a`, any stream of commands in which encoder `k` accepts no click leaves its LAST_TS at `a`, so the
next accepted click is at least WINDOW after `a`, modulo `2^W`. -/
def Obligations.RejectedClicksDoNotExtendWindow : Prop :=
  ∀ (s s' t u : State) (k a now : Nat) (x y z : Encoder) (cs : List (Nat × Instr)),
    exec (.click a) { s with sel := k } = .next s' → s'.encoders[k]? = some x → x.out.click = true →
    runCommands cs s' = .next t → (∀ o ∈ ownOutputs k cs s', o.click = false) → t.encoders[k]? = some y →
    exec (.click now) { t with sel := k } = .next u → u.encoders[k]? = some z →
    y.lastTs = a ∧ (z.out.click = true ↔ (x.cfg.window : Int) ≤ ((now : Int) - a) % 2 ^ s.w)

/-! ## Ordering and isolation of streams -/

/-- R50: swapping an adjacent ADVANCE and CLICK to the same encoder changes neither the final registers nor the output of either. -/
def Obligations.AdvanceAndClickCommute : Prop :=
  ∀ (s : State) (k : Nat) (x : Encoder) (p : Sample) (now : Nat), s.encoders[k]? = some x →
    ∃ t u a c, runCommands [(k, .advance p), (k, .click now)] s = .next t ∧
      runCommands [(k, .click now), (k, .advance p)] s = .next u ∧
      t.encoders.map Encoder.regs = u.encoders.map Encoder.regs ∧
      ownOutputs k [(k, .advance p), (k, .click now)] s = [a, c] ∧
      ownOutputs k [(k, .click now), (k, .advance p)] s = [c, a]

/-- R49: in any interleaving of command streams, every encoder ends with the registers, and drives the outputs, that its own stream
alone gives. -/
def Obligations.InterleavingDoesNotMatter : Prop :=
  ∀ (cs : List (Nat × Instr)) (s t : State) (k : Nat), runCommands cs s = .next t →
    ∃ u, runCommands (cs.filter fun c => c.1 == k) s = .next u ∧
      t.encoders[k]?.map Encoder.regs = u.encoders[k]?.map Encoder.regs ∧
      ownOutputs k cs s = ownOutputs k (cs.filter fun c => c.1 == k) s

/-- R20, R24, R31: across a step, STATE of an encoder changes only by a reset or an ADVANCE to it, and LAST_TS only by a reset or a
click it accepts in that step. -/
def Obligations.OnlyOwnCommandWritesARegister : Prop :=
  ∀ (s t : State) (j : Nat) (x y : Encoder), step s = .next t → s.encoders[j]? = some x → t.encoders[j]? = some y →
    (∃ k p, s.inputs.head? = some (.drive k p) ∧ p.rst = true) ∨
    ((y.state ≠ x.state →
        (∃ p, s.inputs.head? = some (.drive j p) ∧ p.cmd.extractLsb' 2 2 = 0b01#2) ∨
        (∃ pin clk dt, s.inputs.head? = some (.rotation pin clk dt) ∧ s.rotationOwner pin = some j)) ∧
     (y.lastTs ≠ x.lastTs → y.out.click = true))

/-- R25, R26: no step changes the configuration. -/
def Obligations.StepKeepsConfiguration : Prop :=
  ∀ s t : State, step s = .next t → t.config = s.config

/-- R27: in any step at most one output of an encoder is 1. That at most one encoder drives one is the model's reading, not R27's: a step
brings a command to at most one encoder (log 9). -/
def Obligations.AtMostOneOutputPerStep : Prop :=
  ∀ s t : State, step s = .next t →
    (∀ (j : Nat) (x : Encoder), t.encoders[j]? = some x → x.out.AtMostOne) ∧
    ∀ (i j : Nat) (x y : Encoder), t.encoders[i]? = some x → t.encoders[j]? = some y →
      x.out ≠ { cw := false, acw := false, click := false } →
      y.out ≠ { cw := false, acw := false, click := false } → i = j

/-- R27, R29: no output is stored: what the last step drove, returned and emitted has no influence on the next step. -/
def Obligations.OutputsAreNotStored : Prop :=
  ∀ (s : State) (o : Nat → Outputs) (r : Returned) (e : Option Emission),
    step { s with encoders := s.encoders.mapIdx fun j x => { x with out := o j }, returned := r, emission := e } = step s

/-! ## Invariant and legal environments -/

/-- The reset state meets the invariant, and its environment is within its duties. (Its configuration is the model's choice, log 1,
and so is that the duty of distinct pins bears on the pins within one encoder, log 19.) -/
def Obligations.ResetMeetsInvariant : Prop := State.reset.Inv ∧ State.reset.LegalEnvironment

/-- Every step keeps the invariant: the configuration stays within R8 and R140, every LAST_TS stays a W-bit value (R24), and no encoder
drives two outputs (R27). (For a `now` of `2^W` or more on the ports, this is the model's reading of the port, log 4.) -/
def Obligations.StepKeepsInvariant : Prop :=
  ∀ s t : State, s.Inv → step s = .next t → t.Inv

/-- R120, R142: while no reserved word and no command to an absent encoder comes, every step completes, and so does a run of any
length; an environment within its duties sends neither, and every step leaves it within them. (That an absent encoder is refused is the model's stop, log 8; which moves count
as within the duties, among them any direct ADVANCE, is its reading, log 18; and that the pins within one encoder differ too is its
choice, log 19.) -/
def Obligations.LegalEnvironmentNeverStops : Prop :=
  ∀ s : State,
    (s.RunnableInputs → (∃ t, step s = .next t ∧ t.RunnableInputs) ∧ ∀ n, ∃ t, Host.Core.run core n s = .next t) ∧
    (s.LegalEnvironment → s.RunnableInputs ∧ ∀ t, step s = .next t → t.LegalEnvironment)

/-! ## Environment -/

/-- R137: a rotation trigger on a pin whose first claiming encoder is `k` is one ADVANCE to `k` with the sample `{CLK, DT}` just read;
no other encoder changes, and the step returns the encoder's ID with the event exactly when the event is not NONE. (That a trigger's step
always performs its command rests on the model's choice that a trigger never coincides with a reset, log 17. That the trigger is an
entry of the input list, log 6, carries what the handler reads, log 13, and shows its result in the next state, log 5, is the
model's too.) -/
def Obligations.RotationTriggerAdvancesOwner : Prop :=
  ∀ (s : State) (rest : List Stimulus) (pin k : Nat) (clk dt : Bool) (x : Encoder),
    s.inputs = .rotation pin clk dt :: rest → s.encoders[k]? = some x →
    (x.cfg.pins.clk = pin ∨ x.cfg.pins.dt = pin) →
    (∀ j z, j < k → s.encoders[j]? = some z → z.cfg.pins.clk ≠ pin ∧ z.cfg.pins.dt ≠ pin) →
    ∃ t u y, step s = .next t ∧ exec (.advance (BitVec.ofNat 2 (2 * clk.toNat + dt.toNat))) { s with sel := k } = .next u ∧
      t.encoders = u.encoders ∧ t.inputs = rest ∧ t.encoders[k]? = some y ∧
      (∀ j z, j ≠ k → s.encoders[j]? = some z → t.encoders[j]?.map Encoder.regs = some z.regs) ∧
      t.returned =
        if y.out.cw = true then .rotation x.cfg.id .clockwise
        else if y.out.acw = true then .rotation x.cfg.id .antiClockwise
        else .nothing

/-- R138: a click trigger on a pin that is first the SW pin of encoder `k` is one CLICK to `k` with the timestamp; no other encoder
changes, and the step returns the encoder's ID with the decision, accepted or not. (That a trigger's step always performs its command
rests on the model's choice that a trigger never coincides with a reset, log 17. That the trigger is an entry of the input list, log 6,
carries the handler's timestamp, log 13, and shows its result in the next state, log 5, is the model's too.) -/
def Obligations.ClickTriggerClicksOwner : Prop :=
  ∀ (s : State) (rest : List Stimulus) (pin now k : Nat) (x : Encoder),
    s.inputs = .click pin now :: rest → now < 2 ^ s.w → s.encoders[k]? = some x → x.cfg.pins.sw = some pin →
    (∀ j z, j < k → s.encoders[j]? = some z → z.cfg.pins.sw ≠ some pin) →
    ∃ t u y, step s = .next t ∧ exec (.click now) { s with sel := k } = .next u ∧
      t.encoders = u.encoders ∧ t.inputs = rest ∧ t.encoders[k]? = some y ∧
      (∀ j z, j ≠ k → s.encoders[j]? = some z → t.encoders[j]?.map Encoder.regs = some z.regs) ∧
      t.returned = .click x.cfg.id y.out.click

/-- R139: a trigger on a pin that no encoder claims gives no command and no event, and no encoder's state changes. (That no reset falls
into the same step is the model's choice, log 17.) -/
def Obligations.UnclaimedTriggerDoesNothing : Prop :=
  ∀ (s : State) (rest : List Stimulus) (pin now : Nat) (clk dt : Bool),
    (s.inputs = .rotation pin clk dt :: rest ∧
      ∀ x ∈ s.encoders, x.cfg.pins.clk ≠ pin ∧ x.cfg.pins.dt ≠ pin) ∨
    (s.inputs = .click pin now :: rest ∧ ∀ x ∈ s.encoders, x.cfg.pins.sw ≠ some pin) →
    ∃ t, step s = .next t ∧ t.encoders.map Encoder.regs = s.encoders.map Encoder.regs ∧ t.config = s.config ∧
      t.inputs = rest ∧ t.returned = .nothing ∧ t.emission = none ∧
      ∀ x ∈ t.encoders, x.out = { cw := false, acw := false, click := false }

/-- R135: with distinct pins, the first encoder that claims a pin is the only one. (That the pins within one encoder differ too is the
model's choice of what distinct pins are, log 19.) -/
def Obligations.DistinctPinsHaveOneOwner : Prop :=
  ∀ (s : State) (k : Nat) (x : Encoder), s.config.pinsDistinct = true → s.encoders[k]? = some x →
    s.rotationOwner x.cfg.pins.clk = some k ∧ s.rotationOwner x.cfg.pins.dt = some k ∧
    (∀ q, x.cfg.pins.sw = some q → s.clickOwner q = some k ∧ s.rotationOwner q = none) ∧
    s.clickOwner x.cfg.pins.clk = none ∧ s.clickOwner x.cfg.pins.dt = none

/-- R124: with distinct pins, each level change of a CLK or DT pin runs one rotation handler, a fall of a SW pin runs one click handler,
and a rise of a SW pin runs none; the handler's trigger is put behind what waits (log 14). (That the pins within one encoder differ too is
the model's choice of what distinct pins are, log 19.) -/
def Obligations.PinEdgesRunTheRegisteredHandler : Prop :=
  ∀ (s : State) (k : Nat) (x : Encoder) (old new clk dt : Bool) (now : Nat), s.config.pinsDistinct = true →
    s.encoders[k]? = some x → old ≠ new →
    (∀ pin, pin = x.cfg.pins.clk ∨ pin = x.cfg.pins.dt →
      (s.pinEdge pin old new clk dt now).inputs = s.inputs ++ [.rotation pin clk dt]) ∧
    (∀ pin, x.cfg.pins.sw = some pin →
      (s.pinEdge pin old new clk dt now).inputs = if new then s.inputs else s.inputs ++ [.click pin now])

/-- R141: the environment emits a record for a CLOCKWISE or ANTI_CLOCKWISE event and for an accepted click, with the ID of the encoder
that drove it, and nothing in a step in which no encoder drives an output. (A record for a command put on the ports directly is the
model's reading, log 16; so is that a step has at most one command to record, log 9; and that an id of 16 or more has one record in
PACKED mode is its choice, log 3.) -/
def Obligations.OneRecordPerEvent : Prop :=
  ∀ s t : State, step s = .next t →
    (∀ (j : Nat) (x : Encoder), t.encoders[j]? = some x →
      (x.out.cw = true → t.emission = some (emit s.outMode x.cfg.id .cw)) ∧
      (x.out.acw = true → t.emission = some (emit s.outMode x.cfg.id .acw)) ∧
      (x.out.click = true → t.emission = some (emit s.outMode x.cfg.id .click))) ∧
    (t.emission ≠ none → ∃ x ∈ t.encoders, x.out ≠ { cw := false, acw := false, click := false })

/-- R140: for an id of at most 15 the packed byte is `0x10*encoderId + actionCode`: the id in bits 7 to 4, zeros in bits 3 and 2, the
action code in bits 1 and 0; and a text line ends in the suffix `cw`, `acw` or `s` and the line terminator, whatever the rendering of
the id and the terminator are. -/
def Obligations.EmittedRecordFormat : Prop :=
  ∀ (id : Nat) (a : Action),
    (id ≤ 15 → ∃ b, emit .packed id a = .packed b ∧
      b.toNat = 0x10 * id + (match a with | .cw => 0 | .acw => 1 | .click => 2) ∧
      (b.extractLsb' 4 4).toNat = id ∧ b.extractLsb' 2 2 = 0b00#2) ∧
    emit .text id a =
      .text (Config.textIdFmt id ++ (match a with | .cw => "cw" | .acw => "acw" | .click => "s") ++ Config.textEol)

/-! ## NOPs in a stream -/

/-- R115: a NOP between two commands, to any encoder, changes neither what the commands of the stream drive nor the final registers and
configuration; in the own outputs of the encoder it goes to it adds its own zeros in its place. -/
def Obligations.NopBetweenCommandsChangesNothing : Prop :=
  ∀ (s u : State) (k : Nat) (pre post : List (Nat × Instr)), k < s.encoders.length →
    runCommands (pre ++ post) s = .next u →
    ∃ t, runCommands (pre ++ (k, .nop) :: post) s = .next t ∧
      t.encoders.map Encoder.regs = u.encoders.map Encoder.regs ∧ t.config = u.config ∧
      ∀ j, ∃ outs, ownOutputs j (pre ++ post) s = ownOutputs j pre s ++ outs ∧
        ownOutputs j (pre ++ (k, .nop) :: post) s =
          ownOutputs j pre s ++ (if j = k then [{ cw := false, acw := false, click := false }] else []) ++ outs
end

