-- ==== Sys2Proof/Laws/Operands.lean ====
section
/-! SUPPORT. The modular difference and the pin sample. -/

namespace Sys2Proof.Machine

theorem subW_lt (w a b : Nat) : subW w a b < 2 ^ w := Nat.mod_lt _ (Nat.two_pow_pos w)

/-- `subW` is the difference of the integers reduced modulo `2 ^ w`, for all integers (R13). -/
theorem subW_eq_emod (w a b : Nat) : (subW w a b : Int) = ((a : Int) - b) % 2 ^ w := by
  have hb : b % 2 ^ w < 2 ^ w := Nat.mod_lt _ (Nat.two_pow_pos w)
  have hd := Nat.div_add_mod b (2 ^ w)
  have hcast : ((a + (2 ^ w - b % 2 ^ w) : Nat) : Int) = (a - b) + 2 ^ w * ((b / 2 ^ w : Nat) + 1) := by
    push_cast [Nat.cast_sub hb.le]
    have hd' : (2 ^ w : Int) * ((b : Int) / 2 ^ w) + (b : Int) % 2 ^ w = b := by exact_mod_cast hd
    linarith
  rw [subW, Int.natCast_emod, hcast, Nat.cast_pow, Nat.cast_ofNat, Int.add_mul_emod_self_left]

/-- The difference between a timestamp `e` units after `b` and `b` is `e` modulo `2 ^ w`. -/
theorem subW_add (w b e : Nat) : subW w ((b + e) % 2 ^ w) b = e % 2 ^ w := by
  have h : (subW w ((b + e) % 2 ^ w) b : Int) = ((e % 2 ^ w : Nat) : Int) := by
    rw [subW_eq_emod]
    push_cast
    rw [Int.emod_sub_emod]
    congr 1
    ring
  exact_mod_cast h

theorem subW_self (w a : Nat) : subW w a a = 0 := by
  have h : (subW w a a : Int) = 0 := by rw [subW_eq_emod]; simp
  exact_mod_cast h

@[simp] theorem clk_sampleOf (clk dt : Bool) : Sample.clk (sampleOf clk dt) = clk := by
  cases clk <;> cases dt <;> rfl

@[simp] theorem dt_sampleOf (clk dt : Bool) : Sample.dt (sampleOf clk dt) = dt := by
  cases clk <;> cases dt <;> rfl

/-- `s = 2*CLK + DT` (R63). -/
theorem sampleOf_toNat (clk dt : Bool) : (sampleOf clk dt).toNat = 2 * clk.toNat + dt.toNat := by
  cases clk <;> cases dt <;> rfl

end Sys2Proof.Machine
end

