-- ==== Sys2Proof/Laws/Click.lean ====
section
/-! SUPPORT. The acceptance test. -/

namespace Sys2Proof.Machine

theorem Encoder.accepts_iff (w now : Nat) (x : Encoder) :
    x.accepts w now = true ↔ x.cfg.window ≤ subW w now x.lastTs := by
  simp [Encoder.accepts]

/-- The acceptance test in integers (R101). -/
theorem Encoder.accepts_iff_emod (w now : Nat) (x : Encoder) :
    x.accepts w now = true ↔ (x.cfg.window : Int) ≤ ((now : Int) - x.lastTs) % 2 ^ w := by
  rw [Encoder.accepts_iff, ← subW_eq_emod, Int.ofNat_le]

end Sys2Proof.Machine
end

