-- ==== Sys2Proof/Laws/Codes.lean ====
section
/-! SUPPORT. The row codes are a bijection and no two rotation states or events share a code. -/

namespace Sys2Proof.Machine

@[simp] theorem Row.ofCode_code (r : Row) : Row.ofCode r.code = r := by cases r <;> rfl

@[simp] theorem Row.code_ofCode (c : RowCode) : (Row.ofCode c).code = c := by
  revert c; decide

theorem Row.code_injective : Function.Injective Row.code :=
  Function.LeftInverse.injective Row.ofCode_code

theorem RotationState.code_injective : Function.Injective RotationState.code := by
  intro a b h
  cases a <;> cases b <;> first | rfl | (revert h; decide)

theorem RotationEvent.code_injective : Function.Injective RotationEvent.code := by
  intro a b h
  cases a <;> cases b <;> first | rfl | (revert h; decide)

end Sys2Proof.Machine
end

