-- ==== Sys2Proof/Laws/Decode.lean ====
section
/-! SUPPORT. The opcode table is unambiguous, and what the decoder answers for each op field. -/

namespace Sys2Proof

/-- No word belongs to two rows of the opcode table. -/
theorem opcodeTable_disjoint :
    opcodeTable.Pairwise fun a b => ∀ cmd : CmdWord, (a.matches cmd && b.matches cmd) = false := by
  simp only [opcodeTable, List.pairwise_cons]
  decide

@[simp] theorem nopRow_matches (cmd : CmdWord) : nopRow.matches cmd = (cmd.extractLsb' 2 2 == 0b00#2) := by
  revert cmd; decide

@[simp] theorem advanceRow_matches (cmd : CmdWord) : advanceRow.matches cmd = (cmd.extractLsb' 2 2 == 0b01#2) := by
  revert cmd; decide

@[simp] theorem clickRow_matches (cmd : CmdWord) : clickRow.matches cmd = (cmd.extractLsb' 2 2 == 0b10#2) := by
  revert cmd; decide

@[simp] theorem operandField_advanceWord (s : Sample) : operandField (advanceWord s) = s := by
  revert s; decide

/-- The op field of an ADVANCE word is `01`. -/
@[simp] theorem op_advanceWord (s : Sample) : (advanceWord s).extractLsb' 2 2 = 0b01#2 := by
  revert s; decide

theorem portNow_lt (w now : Nat) : portNow w now < 2 ^ w := Nat.mod_lt _ (Nat.two_pow_pos w)

theorem portNow_of_fits {w now : Nat} (h : now < 2 ^ w) : portNow w now = now := Nat.mod_eq_of_lt h

/-- Everything the decoder can answer, by the op field (R61). -/
theorem decode_cases (w : Nat) (cmd : CmdWord) (now : Nat) :
    (cmd.extractLsb' 2 2 = 0b00#2 ∧ decode w cmd now = .ok .nop) ∨
    (cmd.extractLsb' 2 2 = 0b01#2 ∧ decode w cmd now = .ok (.advance (operandField cmd))) ∨
    (cmd.extractLsb' 2 2 = 0b10#2 ∧ decode w cmd now = .ok (.click (portNow w now))) ∨
    (cmd.extractLsb' 2 2 = 0b11#2 ∧ decode w cmd now = .error .reservedOp) := by
  have h : ∀ op : BitVec 2, op = 0b00#2 ∨ op = 0b01#2 ∨ op = 0b10#2 ∨ op = 0b11#2 := by decide
  obtain h | h | h | h := h (cmd.extractLsb' 2 2) <;> simp [decode, h]

/-- An ADVANCE word decodes to its sample, whatever stands on the `now` port. -/
@[simp] theorem decode_advanceWord (w now : Nat) (s : Sample) : decode w (advanceWord s) now = .ok (.advance s) := by
  simp [decode]

/-- The CLICK word of R71 decodes to a click at what the port carries. -/
@[simp] theorem decode_clickWord (w now : Nat) : decode w 0b1000#4 now = .ok (.click (portNow w now)) := by
  simp [decode]

end Sys2Proof
end

