-- ==== Sys2Proof/Laws/State.lean ====
section
/-! SUPPORT. One lemma per field for every named update of an encoder and of the state. -/

namespace Sys2Proof.Machine

/-! Encoder -/
@[simp] theorem Encoder.idle_cfg (x : Encoder) : (x.idle).cfg = x.cfg := rfl
@[simp] theorem Encoder.idle_state (x : Encoder) : (x.idle).state = x.state := rfl
@[simp] theorem Encoder.idle_lastTs (x : Encoder) : (x.idle).lastTs = x.lastTs := rfl
@[simp] theorem Encoder.idle_out (x : Encoder) : (x.idle).out = Outputs.allLow := rfl
@[simp] theorem Encoder.restart_cfg (t : Nat) (x : Encoder) : (x.restart t).cfg = x.cfg := rfl
@[simp] theorem Encoder.restart_state (t : Nat) (x : Encoder) : (x.restart t).state = .start := rfl
@[simp] theorem Encoder.restart_lastTs (t : Nat) (x : Encoder) : (x.restart t).lastTs = t := rfl
@[simp] theorem Encoder.restart_out (t : Nat) (x : Encoder) : (x.restart t).out = Outputs.allLow := rfl
@[simp] theorem Encoder.advance_cfg (p : Sample) (x : Encoder) : (x.advance p).cfg = x.cfg := rfl
@[simp] theorem Encoder.advance_state (p : Sample) (x : Encoder) : (x.advance p).state = rowOf (transition x.state p) := rfl
@[simp] theorem Encoder.advance_lastTs (p : Sample) (x : Encoder) : (x.advance p).lastTs = x.lastTs := rfl
@[simp] theorem Encoder.advance_out (p : Sample) (x : Encoder) : (x.advance p).out = Outputs.ofEvent (eventOf (transition x.state p)) := rfl
@[simp] theorem Encoder.click_cfg (w now : Nat) (x : Encoder) : (x.click w now).cfg = x.cfg := rfl
@[simp] theorem Encoder.click_state (w now : Nat) (x : Encoder) : (x.click w now).state = x.state := rfl
@[simp] theorem Encoder.click_lastTs (w now : Nat) (x : Encoder) : (x.click w now).lastTs = if x.accepts w now then now else x.lastTs := rfl
@[simp] theorem Encoder.click_out (w now : Nat) (x : Encoder) : (x.click w now).out = Outputs.ofClick (x.accepts w now) := rfl

/-! State -/
@[simp] theorem State.idle_w (s : State) : (s.idle).w = s.w := rfl
@[simp] theorem State.idle_tReset (s : State) : (s.idle).tReset = s.tReset := rfl
@[simp] theorem State.idle_outMode (s : State) : (s.idle).outMode = s.outMode := rfl
@[simp] theorem State.idle_encoders (s : State) : (s.idle).encoders = s.encoders.map Encoder.idle := rfl
@[simp] theorem State.idle_inputs (s : State) : (s.idle).inputs = s.inputs := rfl
@[simp] theorem State.idle_sel (s : State) : (s.idle).sel = s.sel := rfl
@[simp] theorem State.idle_returned (s : State) : (s.idle).returned = s.returned := rfl
@[simp] theorem State.idle_emission (s : State) : (s.idle).emission = s.emission := rfl
@[simp] theorem State.restart_w (s : State) : (s.restart).w = s.w := rfl
@[simp] theorem State.restart_tReset (s : State) : (s.restart).tReset = s.tReset := rfl
@[simp] theorem State.restart_outMode (s : State) : (s.restart).outMode = s.outMode := rfl
@[simp] theorem State.restart_encoders (s : State) : (s.restart).encoders = s.encoders.map (Encoder.restart s.tReset) := rfl
@[simp] theorem State.restart_inputs (s : State) : (s.restart).inputs = s.inputs := rfl
@[simp] theorem State.restart_sel (s : State) : (s.restart).sel = s.sel := rfl
@[simp] theorem State.restart_returned (s : State) : (s.restart).returned = s.returned := rfl
@[simp] theorem State.restart_emission (s : State) : (s.restart).emission = s.emission := rfl
@[simp] theorem State.report_w (r : Returned) (s : State) : (s.report r).w = s.w := rfl
@[simp] theorem State.report_tReset (r : Returned) (s : State) : (s.report r).tReset = s.tReset := rfl
@[simp] theorem State.report_outMode (r : Returned) (s : State) : (s.report r).outMode = s.outMode := rfl
@[simp] theorem State.report_encoders (r : Returned) (s : State) : (s.report r).encoders = s.encoders := rfl
@[simp] theorem State.report_inputs (r : Returned) (s : State) : (s.report r).inputs = s.inputs := rfl
@[simp] theorem State.report_sel (r : Returned) (s : State) : (s.report r).sel = s.sel := rfl
@[simp] theorem State.report_returned (r : Returned) (s : State) : (s.report r).returned = r := rfl
@[simp] theorem State.report_emission (r : Returned) (s : State) : (s.report r).emission = s.encoders[s.sel]?.bind (Encoder.emission s.outMode) := rfl
@[simp] theorem State.feedWord_w (v : Nat) (s : State) : (s.feedWord v).w = s.w := rfl
@[simp] theorem State.feedWord_tReset (v : Nat) (s : State) : (s.feedWord v).tReset = s.tReset := rfl
@[simp] theorem State.feedWord_outMode (v : Nat) (s : State) : (s.feedWord v).outMode = s.outMode := rfl
@[simp] theorem State.feedWord_encoders (v : Nat) (s : State) : (s.feedWord v).encoders = s.encoders := rfl
@[simp] theorem State.feedWord_inputs (v : Nat) (s : State) : (s.feedWord v).inputs = .drive 0 { cmd := BitVec.ofNat 4 v, now := 0, rst := false } :: s.inputs := rfl
@[simp] theorem State.feedWord_sel (v : Nat) (s : State) : (s.feedWord v).sel = s.sel := rfl
@[simp] theorem State.feedWord_returned (v : Nat) (s : State) : (s.feedWord v).returned = s.returned := rfl
@[simp] theorem State.feedWord_emission (v : Nat) (s : State) : (s.feedWord v).emission = s.emission := rfl
@[simp] theorem State.pinEdge_w (pin : Nat) (old new clk dt : Bool) (now : Nat) (s : State) : (s.pinEdge pin old new clk dt now).w = s.w := rfl
@[simp] theorem State.pinEdge_tReset (pin : Nat) (old new clk dt : Bool) (now : Nat) (s : State) : (s.pinEdge pin old new clk dt now).tReset = s.tReset := rfl
@[simp] theorem State.pinEdge_outMode (pin : Nat) (old new clk dt : Bool) (now : Nat) (s : State) : (s.pinEdge pin old new clk dt now).outMode = s.outMode := rfl
@[simp] theorem State.pinEdge_encoders (pin : Nat) (old new clk dt : Bool) (now : Nat) (s : State) : (s.pinEdge pin old new clk dt now).encoders = s.encoders := rfl
@[simp] theorem State.pinEdge_inputs (pin : Nat) (old new clk dt : Bool) (now : Nat) (s : State) : (s.pinEdge pin old new clk dt now).inputs = s.inputs ++ (s.handlersOf pin old new).map (Handler.stimulus pin clk dt now) := rfl
@[simp] theorem State.pinEdge_sel (pin : Nat) (old new clk dt : Bool) (now : Nat) (s : State) : (s.pinEdge pin old new clk dt now).sel = s.sel := rfl
@[simp] theorem State.pinEdge_returned (pin : Nat) (old new clk dt : Bool) (now : Nat) (s : State) : (s.pinEdge pin old new clk dt now).returned = s.returned := rfl
@[simp] theorem State.pinEdge_emission (pin : Nat) (old new clk dt : Bool) (now : Nat) (s : State) : (s.pinEdge pin old new clk dt now).emission = s.emission := rfl

/-! The configuration of a state -/

@[simp] theorem State.config_idle (s : State) : s.idle.config = s.config := by
  simp [State.config]

@[simp] theorem State.config_restart (s : State) : s.restart.config = s.config := by
  simp [State.config]

@[simp] theorem State.config_report (r : Returned) (s : State) : (s.report r).config = s.config := rfl

@[simp] theorem State.config_sel (s : State) (k : Nat) : { s with sel := k }.config = s.config := rfl

@[simp] theorem State.config_inputs (s : State) (l : List Stimulus) : { s with inputs := l }.config = s.config := rfl

@[simp] theorem State.config_boot (c : DeviceConfig) : (State.boot c).config = c := by
  simp [State.config, State.boot, Encoder.afterReset, Function.comp_def]

end Sys2Proof.Machine
end

