-- ==== Sys2Proof/Laws/Ops.lean ====
section
/-! SUPPORT. What performing one command can do. -/

namespace Sys2Proof.Machine

/-- The state after a command that changes the addressed encoder by `f`. -/
def State.performed (f : Encoder → Encoder) (s : State) : State :=
  { s with encoders := s.encoders.mapIdx fun j x => if j = s.sel then f x else x.idle }

theorem State.perform_of_lt {f : Encoder → Encoder} {s : State} (h : s.sel < s.encoders.length) :
    s.perform f = .next (s.performed f) := by
  simp [State.perform, State.performed, h]

theorem State.perform_of_not_lt {f : Encoder → Encoder} {s : State} (h : ¬s.sel < s.encoders.length) :
    s.perform f = .refused .noSuchEncoder := by
  simp [State.perform, h]

/-- Everything `perform` can answer. -/
theorem State.perform_cases (f : Encoder → Encoder) (s : State) :
    (s.sel < s.encoders.length ∧ s.perform f = .next (s.performed f)) ∨
    (s.encoders.length ≤ s.sel ∧ s.perform f = .refused .noSuchEncoder) := by
  by_cases h : s.sel < s.encoders.length
  · exact .inl ⟨h, State.perform_of_lt h⟩
  · exact .inr ⟨Nat.le_of_not_lt h, State.perform_of_not_lt h⟩

theorem State.perform_next {f : Encoder → Encoder} {s t : State} (h : s.perform f = .next t) :
    s.sel < s.encoders.length ∧ t = s.performed f := by
  obtain ⟨hlt, he⟩ | ⟨_, he⟩ := State.perform_cases f s <;> rw [he] at h
  · exact ⟨hlt, by injection h with h; exact h.symm⟩
  · exact absurd h (by simp)

@[simp] theorem State.performed_w (f : Encoder → Encoder) (s : State) : (s.performed f).w = s.w := rfl
@[simp] theorem State.performed_tReset (f : Encoder → Encoder) (s : State) : (s.performed f).tReset = s.tReset := rfl
@[simp] theorem State.performed_outMode (f : Encoder → Encoder) (s : State) : (s.performed f).outMode = s.outMode := rfl
@[simp] theorem State.performed_inputs (f : Encoder → Encoder) (s : State) : (s.performed f).inputs = s.inputs := rfl
@[simp] theorem State.performed_sel (f : Encoder → Encoder) (s : State) : (s.performed f).sel = s.sel := rfl
@[simp] theorem State.performed_returned (f : Encoder → Encoder) (s : State) : (s.performed f).returned = s.returned := rfl
@[simp] theorem State.performed_emission (f : Encoder → Encoder) (s : State) : (s.performed f).emission = s.emission := rfl

@[simp] theorem State.performed_length (f : Encoder → Encoder) (s : State) :
    (s.performed f).encoders.length = s.encoders.length := by
  simp [State.performed]

/-- Encoder `j` after the command. -/
@[simp] theorem State.performed_getElem? (f : Encoder → Encoder) (s : State) (j : Nat) :
    (s.performed f).encoders[j]? = s.encoders[j]?.map fun x => if j = s.sel then f x else x.idle := by
  simp [State.performed, List.getElem?_mapIdx]

/-- A command that keeps the addressed encoder's configuration keeps the device's. -/
theorem State.performed_config {f : Encoder → Encoder} (hf : ∀ x, (f x).cfg = x.cfg) (s : State) :
    (s.performed f).config = s.config := by
  have h : (s.performed f).encoders.map (·.cfg) = s.encoders.map (·.cfg) := by
    apply List.ext_getElem?
    intro j
    simp only [List.getElem?_map, State.performed_getElem?, Option.map_map]
    congr 1
    funext x
    by_cases hj : j = s.sel <;> simp [hj, hf]
  simp [State.config, h]

end Sys2Proof.Machine
end

