-- ==== Sys2Proof/Laws/Dispatch.lean ====
section
/-! SUPPORT. exec is one command performed on the addressed encoder. -/

namespace Sys2Proof.Machine

/-- What a command does to the encoder it is addressed to, in a device of timestamp width `w`. -/
def Encoder.apply (w : Nat) : Instr → Encoder → Encoder
  | .nop => Encoder.idle
  | .advance p => Encoder.advance p
  | .click now => Encoder.click w now

@[simp] theorem Encoder.apply_cfg (w : Nat) (i : Instr) (x : Encoder) : (x.apply w i).cfg = x.cfg := by
  cases i <;> rfl

/-- Every command is `perform`; later proofs cite this instead of unfolding `exec`. -/
theorem exec_eq_perform (i : Instr) (s : State) : exec i s = s.perform (Encoder.apply s.w i) := by
  cases i <;> rfl

theorem exec_of_lt {i : Instr} {s : State} (h : s.sel < s.encoders.length) :
    exec i s = .next (s.performed (Encoder.apply s.w i)) := by
  rw [exec_eq_perform, State.perform_of_lt h]

theorem exec_next {i : Instr} {s t : State} (h : exec i s = .next t) :
    s.sel < s.encoders.length ∧ t = s.performed (Encoder.apply s.w i) :=
  State.perform_next (exec_eq_perform i s ▸ h)

/-- A command addressed to an encoder of the device completes; any other is refused by name. -/
theorem exec_refused {i : Instr} {s : State} {r : Refusal} (h : exec i s = .refused r) :
    s.encoders.length ≤ s.sel ∧ r = .noSuchEncoder := by
  rw [exec_eq_perform] at h
  obtain ⟨_, he⟩ | ⟨hle, he⟩ := State.perform_cases (Encoder.apply s.w i) s <;> rw [he] at h
  · exact absurd h (by simp)
  · exact ⟨hle, by injection h with h; exact h.symm⟩

end Sys2Proof.Machine
end

