-- ==== Sys2Proof/Laws/Control.lean ====
section
/-! SUPPORT. What the ports and the dispatch functions can do, each function inverted once. -/

namespace Sys2Proof.Machine

theorem mapNext_next {f : State → State} {o : Host.Outcome State Fault Refusal} {t : State}
    (h : mapNext f o = .next t) : ∃ u, o = .next u ∧ t = f u := by
  cases o with
  | next u => exact ⟨u, rfl, by injection h with h; exact h.symm⟩
  | fault r => exact absurd h (by simp [mapNext])
  | refused r => exact absurd h (by simp [mapNext])

theorem mapNext_refused {f : State → State} {o : Host.Outcome State Fault Refusal} {r : Refusal}
    (h : mapNext f o = .refused r) : o = .refused r := by
  cases o with
  | next u => exact absurd h (by simp [mapNext])
  | fault r => exact absurd h (by simp [mapNext])
  | refused r' => exact h

theorem issue_of_rst {k : Nat} {p : Ports} (h : p.rst = true) (s : State) : issue k p s = .next s.restart := by
  simp [issue, h]

theorem issue_of_decode {k : Nat} {p : Ports} {s : State} {i : Instr} (h : p.rst = false)
    (hd : decode s.w p.cmd p.now = .ok i) : issue k p s = exec i { s with sel := k } := by
  simp [issue, h, hd]

theorem issue_of_reserved {k : Nat} {p : Ports} {s : State} (h : p.rst = false)
    (hd : decode s.w p.cmd p.now = .error .reservedOp) : issue k p s = .refused .reservedCommand := by
  simp [issue, h, hd]

/-- Everything the ports of encoder `k` can do when a next state follows. -/
theorem issue_next {k : Nat} {p : Ports} {s t : State} (h : issue k p s = .next t) :
    (p.rst = true ∧ t = s.restart) ∨
    (p.rst = false ∧ ∃ i, decode s.w p.cmd p.now = .ok i ∧ k < s.encoders.length ∧
      t = ({ s with sel := k } : State).performed (Encoder.apply s.w i)) := by
  cases hr : p.rst with
  | true =>
    rw [issue_of_rst hr] at h
    exact .inl ⟨rfl, by injection h with h; exact h.symm⟩
  | false =>
    cases hd : decode s.w p.cmd p.now with
    | error e =>
      cases e
      rw [issue_of_reserved hr hd] at h
      exact absurd h (by simp)
    | ok i =>
      rw [issue_of_decode hr hd] at h
      obtain ⟨hlt, ht⟩ := exec_next h
      exact .inr ⟨rfl, i, rfl, hlt, ht⟩

/-- A claimed rotation trigger is an ADVANCE to the claiming encoder (R137). -/
theorem dispatchRotation_of_owner {pin k : Nat} {clk dt : Bool} {s : State} (h : s.rotationOwner pin = some k) :
    dispatchRotation pin clk dt s =
      mapNext (fun t => t.report t.rotationResult) (exec (.advance (sampleOf clk dt)) { s with sel := k }) := by
  simp [dispatchRotation, h, issue]

/-- A claimed click trigger is a CLICK to the claiming encoder (R138). -/
theorem dispatchClick_of_owner {pin k now : Nat} {s : State} (h : s.clickOwner pin = some k) :
    dispatchClick pin now s =
      mapNext (fun t => t.report t.clickResult) (exec (.click (portNow s.w now)) { s with sel := k }) := by
  simp [dispatchClick, h, issue]

theorem dispatchRotation_unclaimed {pin : Nat} {clk dt : Bool} {s : State} (h : s.rotationOwner pin = none) :
    dispatchRotation pin clk dt s = quietStep s := by
  simp [dispatchRotation, h]

theorem dispatchClick_unclaimed {pin now : Nat} {s : State} (h : s.clickOwner pin = none) :
    dispatchClick pin now s = quietStep s := by
  simp [dispatchClick, h]

/-- The claiming encoder is one of the device's. -/
theorem State.rotationOwner_lt {s : State} {pin k : Nat} (h : s.rotationOwner pin = some k) : k < s.encoders.length := by
  obtain ⟨hk, _⟩ := List.findIdx?_eq_some_iff_getElem.mp h
  exact hk

theorem State.clickOwner_lt {s : State} {pin k : Nat} (h : s.clickOwner pin = some k) : k < s.encoders.length := by
  obtain ⟨hk, _⟩ := List.findIdx?_eq_some_iff_getElem.mp h
  exact hk

end Sys2Proof.Machine
end

