-- ==== Sys2Proof/Laws/Environment.lean ====
section
/-! SUPPORT. The record of a step in which every encoder drives zeros, and the pins of a device. -/

namespace Sys2Proof.Machine

theorem Encoder.emission_of_allLow {m : OutMode} {x : Encoder} (h : x.out = Outputs.allLow) : x.emission m = none := by
  simp [Encoder.emission, h, Outputs.allLow, Outputs.action]

/-- No record is emitted after a step that leaves every encoder with zeros on its outputs. -/
theorem emission_of_allLow {l : List Encoder} {f : Encoder → Encoder} (hf : ∀ x, (f x).out = Outputs.allLow) {k : Nat}
    {m : OutMode} : (l.map f)[k]?.bind (Encoder.emission m) = none := by
  cases h : l[k]? <;> simp [h, Encoder.emission_of_allLow, hf]

theorem Encoder.ownsRotation_iff (pin : Nat) (x : Encoder) :
    x.ownsRotation pin = true ↔ x.cfg.pins.clk = pin ∨ x.cfg.pins.dt = pin := by
  simp [Encoder.ownsRotation]

theorem Encoder.ownsClick_iff (pin : Nat) (x : Encoder) : x.ownsClick pin = true ↔ x.cfg.pins.sw = some pin := by
  simp [Encoder.ownsClick]

/-- The owner is the first encoder in declaration order that claims the pin (R134). -/
theorem State.rotationOwner_eq_some {s : State} {pin k : Nat} {x : Encoder} (hx : s.encoders[k]? = some x)
    (ho : x.ownsRotation pin = true) (hf : ∀ j z, j < k → s.encoders[j]? = some z → z.ownsRotation pin = false) :
    s.rotationOwner pin = some k := by
  obtain ⟨hk, rfl⟩ := List.getElem?_eq_some_iff.mp hx
  refine List.findIdx?_eq_some_iff_getElem.mpr ⟨hk, ho, fun j hj => ?_⟩
  simp [hf j _ hj (List.getElem?_eq_getElem (hj.trans hk))]

theorem State.clickOwner_eq_some {s : State} {pin k : Nat} {x : Encoder} (hx : s.encoders[k]? = some x)
    (ho : x.ownsClick pin = true) (hf : ∀ j z, j < k → s.encoders[j]? = some z → z.ownsClick pin = false) :
    s.clickOwner pin = some k := by
  obtain ⟨hk, rfl⟩ := List.getElem?_eq_some_iff.mp hx
  refine List.findIdx?_eq_some_iff_getElem.mpr ⟨hk, ho, fun j hj => ?_⟩
  simp [hf j _ hj (List.getElem?_eq_getElem (hj.trans hk))]

theorem State.rotationOwner_eq_none {s : State} {pin : Nat} :
    s.rotationOwner pin = none ↔ ∀ x ∈ s.encoders, x.ownsRotation pin = false := by
  simp [State.rotationOwner, List.findIdx?_eq_none_iff]

theorem State.clickOwner_eq_none {s : State} {pin : Nat} :
    s.clickOwner pin = none ↔ ∀ x ∈ s.encoders, x.ownsClick pin = false := by
  simp [State.clickOwner, List.findIdx?_eq_none_iff]

end Sys2Proof.Machine
end

