-- ==== Sys2Proof/Laws/PerInstr.lean ====
section
/-! SUPPORT. Per-instruction laws: family OpcodeRow, each command's word lies in its own row of the opcode table and in no
other. -/

namespace Sys2Proof.Laws.OpcodeRow

/-- The row of spec/opcode_table.json that a command stands for. -/
def rowFor : Instr → OpRow
  | .nop => nopRow
  | .advance _ => advanceRow
  | .click _ => clickRow

/-- The command's word lies in its own row of the opcode table and in no other. -/
def Statement (i : Instr) : Prop :=
  rowFor i ∈ opcodeTable ∧ ∀ r ∈ opcodeTable, r.matches (encode i).1 = true ↔ r = rowFor i

theorem nop : Statement .nop := by
  simp only [Statement, rowFor, encode]; decide

theorem advance (s : Sample) : Statement (.advance s) := by
  simp only [Statement, rowFor, encode]; revert s; decide

theorem click (now : Nat) : Statement (.click now) := by
  simp only [Statement, rowFor, encode]; decide

end Sys2Proof.Laws.OpcodeRow
end

