-- ==== Sys2Proof/Laws/Quadrature.lean ====
section
/-! SUPPORT. The row and event functions on each rotation state, and the table's cells one sample at a time. -/

namespace Sys2Proof.Machine

@[simp] theorem rowOf_start : rowOf .start = .start := rfl
@[simp] theorem rowOf_cw1 : rowOf .cw1 = .cw1 := rfl
@[simp] theorem rowOf_cw2 : rowOf .cw2 = .cw2 := rfl
@[simp] theorem rowOf_cw3 : rowOf .cw3 = .cw3 := rfl
@[simp] theorem rowOf_acw1 : rowOf .acw1 = .acw1 := rfl
@[simp] theorem rowOf_acw2 : rowOf .acw2 = .acw2 := rfl
@[simp] theorem rowOf_acw3 : rowOf .acw3 = .acw3 := rfl
@[simp] theorem rowOf_fault : rowOf .fault = .fault := rfl
@[simp] theorem rowOf_cwFinish : rowOf .cwFinish = .start := rfl
@[simp] theorem rowOf_acwFinish : rowOf .acwFinish = .start := rfl

/-- The four samples (R62). -/
theorem sample_cases (s : Sample) : s = 0b00#2 ∨ s = 0b01#2 ∨ s = 0b10#2 ∨ s = 0b11#2 := by
  revert s; decide

@[simp] theorem transition_00 (r : Row) : transition r 0b00#2 = (tableRow r).s00 := rfl
@[simp] theorem transition_01 (r : Row) : transition r 0b01#2 = (tableRow r).s01 := rfl
@[simp] theorem transition_10 (r : Row) : transition r 0b10#2 = (tableRow r).s10 := rfl
@[simp] theorem transition_11 (r : Row) : transition r 0b11#2 = (tableRow r).s11 := rfl

/-- The clockwise marker of NS is the CLOCKWISE event (R84: `out.cw = NS[3]`). -/
theorem eventOf_clockwise_iff (ns : RotationState) : eventOf ns = .clockwise ↔ ns = .cwFinish := by
  cases ns <;> simp [eventOf]

theorem eventOf_antiClockwise_iff (ns : RotationState) : eventOf ns = .antiClockwise ↔ ns = .acwFinish := by
  cases ns <;> simp [eventOf]

end Sys2Proof.Machine
end

