-- ==== Sys2Proof/Laws/Step.lean ====
section
/-! SUPPORT. Everything one step can do, said once: every invariant of the step is a case analysis over `step_next`. -/

namespace Sys2Proof.Machine

theorem step_nil {s : State} (h : s.inputs = []) : step s = quietStep s := by
  simp [step, runInputs, h]

theorem step_cons {s : State} {x : Stimulus} {rest : List Stimulus} (h : s.inputs = x :: rest) :
    step s = runStimulus x { s with inputs := rest } := by
  simp [step, runInputs, h]

/-- A step that answers a next state left every register alone, reset every encoder, or performed one command on one encoder;
then it reported what came back. The next stimulus is gone in each case. -/
theorem step_next {s t : State} (h : step s = .next t) :
    ∃ u r, t = State.report r u ∧
      (u = { s with inputs := s.inputs.tail }.idle ∨
       (u = { s with inputs := s.inputs.tail }.restart ∧ ∃ k p, s.inputs.head? = some (.drive k p) ∧ p.rst = true) ∨
       (∃ k i, k < s.encoders.length ∧ i.wellFormed s.w = true ∧
         u = ({ s with inputs := s.inputs.tail, sel := k } : State).performed (Encoder.apply s.w i))) := by
  cases hin : s.inputs with
  | nil =>
    rw [step_nil hin] at h
    refine ⟨_, .nothing, by injection h with h; exact h.symm, .inl ?_⟩
    cases s; simp_all
  | cons x rest =>
    rw [step_cons hin] at h
    have wf : ∀ {cmd now i}, decode s.w cmd now = .ok i → i.wellFormed s.w = true := by
      intro cmd now i hd
      obtain ⟨_, e⟩ | ⟨_, e⟩ | ⟨_, e⟩ | ⟨_, e⟩ := decode_cases s.w cmd now <;> rw [e] at hd <;>
        cases hd <;> simp [Instr.wellFormed, fitsW, portNow_lt]
    cases x with
    | drive k p =>
      obtain ⟨u, hu, rfl⟩ := mapNext_next h
      obtain ⟨hr, rfl⟩ | ⟨_, i, hd, hk, rfl⟩ := issue_next hu
      · exact ⟨_, _, rfl, .inr (.inl ⟨rfl, k, p, rfl, hr⟩)⟩
      · exact ⟨_, _, rfl, .inr (.inr ⟨k, i, hk, wf hd, rfl⟩)⟩
    | rotation pin clk dt =>
      simp only [runStimulus] at h
      cases ho : State.rotationOwner { s with inputs := rest } pin with
      | none =>
        rw [dispatchRotation_unclaimed ho] at h
        exact ⟨_, .nothing, by injection h with h; exact h.symm, .inl rfl⟩
      | some k =>
        rw [dispatchRotation_of_owner ho] at h
        obtain ⟨u, hu, rfl⟩ := mapNext_next h
        obtain ⟨hk, rfl⟩ := exec_next hu
        exact ⟨_, _, rfl, .inr (.inr ⟨k, _, hk, rfl, rfl⟩)⟩
    | click pin now =>
      simp only [runStimulus] at h
      cases ho : State.clickOwner { s with inputs := rest } pin with
      | none =>
        rw [dispatchClick_unclaimed ho] at h
        exact ⟨_, .nothing, by injection h with h; exact h.symm, .inl rfl⟩
      | some k =>
        rw [dispatchClick_of_owner ho] at h
        obtain ⟨u, hu, rfl⟩ := mapNext_next h
        obtain ⟨hk, rfl⟩ := exec_next hu
        exact ⟨_, _, rfl, .inr (.inr ⟨k, _, hk, by simp [Instr.wellFormed, fitsW, portNow_lt], rfl⟩)⟩

end Sys2Proof.Machine
end

