-- ==== Sys2Proof/Laws/Stream.lean ====
section
/-! SUPPORT. The frame of a command, and runs of command streams seen from one encoder: a stream to one encoder is a fold over
that encoder. -/

namespace Sys2Proof.Machine

theorem lt_of_encoder {s : State} {k : Nat} {x : Encoder} (h : s.encoders[k]? = some x) : k < s.encoders.length :=
  (List.getElem?_eq_some_iff.mp h).1

/-- A command leaves everything outside the addressed encoder alone. -/
theorem State.performed_frame (f : Encoder → Encoder) (s : State) : s.FrameOutside s.sel (s.performed f) where
  length := State.performed_length f s
  others j x hj hx := by simp [hx, hj, Encoder.idle, Outputs.allLow]
  w := rfl
  tReset := rfl
  outMode := rfl
  inputs := rfl
  sel := rfl
  returned := rfl
  emission := rfl

/-- A command to an encoder of the device completes; the encoder and its frame after it. -/
theorem exec_completes {i : Instr} {s : State} {x : Encoder} (h : s.encoders[s.sel]? = some x) :
    ∃ t, exec i s = .next t ∧ s.FrameOutside s.sel t ∧ t.encoders[s.sel]? = some (x.apply s.w i) :=
  ⟨_, exec_of_lt (lt_of_encoder h), State.performed_frame _ s, by simp [h]⟩

/-- The same for a command addressed to encoder `k`. -/
theorem exec_completes_at {i : Instr} {s : State} {k : Nat} {x : Encoder} (h : s.encoders[k]? = some x) :
    ∃ t, exec i { s with sel := k } = .next t ∧ t.encoders[k]? = some (x.apply s.w i) ∧ t.w = s.w :=
  have ⟨t, he, hf, hx⟩ := exec_completes (i := i) (s := { s with sel := k }) h
  ⟨t, he, hx, hf.w⟩

/-- The state after a command to encoder `k`, where it completes. -/
abbrev State.after (k : Nat) (i : Instr) (s : State) : State := ({ s with sel := k } : State).performed (Encoder.apply s.w i)

/-- A stream that completes begins with a command to an encoder of the device, and goes on from the state after it. -/
theorem runCommands_cons {k : Nat} {i : Instr} {cs : List (Nat × Instr)} {s t : State} :
    runCommands ((k, i) :: cs) s = .next t ↔ k < s.encoders.length ∧ runCommands cs (s.after k i) = .next t := by
  by_cases hl : k < s.encoders.length
  · have he : exec i { s with sel := k } = .next (s.after k i) := exec_of_lt hl
    simp [runCommands, he, hl]
  · have he : exec i { s with sel := k } = .refused .noSuchEncoder := by
      rw [exec_eq_perform, State.perform_of_not_lt hl]
    simp [runCommands, he, hl]

theorem ownOutputs_cons {j k : Nat} {i : Instr} {cs : List (Nat × Instr)} {s : State} (hl : k < s.encoders.length) :
    ownOutputs j ((k, i) :: cs) s =
      (if k = j then ((s.after k i).encoders[j]?.map (·.out)).toList else []) ++ ownOutputs j cs (s.after k i) := by
  have he : exec i { s with sel := k } = .next (s.after k i) := exec_of_lt hl
  simp only [ownOutputs, he]
  split <;> simp

/-- A stream in two parts. -/
theorem runCommands_append {as bs : List (Nat × Instr)} {s u : State} :
    runCommands (as ++ bs) s = .next u ↔ ∃ t, runCommands as s = .next t ∧ runCommands bs t = .next u := by
  induction as generalizing s with
  | nil => simp [runCommands]
  | cons c as ih =>
    obtain ⟨k, i⟩ := c
    simp [runCommands_cons, ih, and_assoc]

theorem ownOutputs_append {j : Nat} {as bs : List (Nat × Instr)} {s t : State} (h : runCommands as s = .next t) :
    ownOutputs j (as ++ bs) s = ownOutputs j as s ++ ownOutputs j bs t := by
  induction as generalizing s with
  | nil => cases h; rfl
  | cons c as ih =>
    obtain ⟨hl, h⟩ := runCommands_cons.mp h
    rw [List.cons_append, ownOutputs_cons hl, ownOutputs_cons hl, ih h, List.append_assoc]

/-- A list of commands on one encoder. -/
def Encoder.applyAll (w : Nat) : List Instr → Encoder → Encoder
  | [], x => x
  | i :: is, x => Encoder.applyAll w is (x.apply w i)

/-- What the encoder drives in each of them. -/
def Encoder.outputs (w : Nat) : List Instr → Encoder → List Outputs
  | [], _ => []
  | i :: is, x => (x.apply w i).out :: Encoder.outputs w is (x.apply w i)

/-- A stream of commands to one encoder completes and is the fold over that encoder. -/
theorem own_stream {k : Nat} (is : List Instr) {s : State} {x : Encoder} (h : s.encoders[k]? = some x) :
    ∃ t, runCommands (is.map (k, ·)) s = .next t ∧ t.encoders[k]? = some (x.applyAll s.w is) ∧ t.w = s.w ∧
      ownOutputs k (is.map (k, ·)) s = x.outputs s.w is := by
  induction is generalizing s x with
  | nil => exact ⟨s, rfl, h, rfl, rfl⟩
  | cons i is ih =>
    obtain ⟨u, hu, hx, hw⟩ := exec_completes_at (i := i) h
    obtain ⟨t, ht, hy, htw, ho⟩ := ih hx
    refine ⟨t, ?_, ?_, htw.trans hw, ?_⟩
    · simpa [runCommands, hu] using ht
    · rw [hy, hw]; rfl
    · simp [ownOutputs, hu, hx, ho, hw, Encoder.outputs]

/-- The row an encoder is in after a list of samples. -/
def rowAfter (r : Row) : List Sample → Row
  | [] => r
  | p :: ps => rowAfter (rowOf (transition r p)) ps

/-- The events of a list of samples. -/
def eventsFrom (r : Row) : List Sample → List RotationEvent
  | [] => []
  | p :: ps => eventOf (transition r p) :: eventsFrom (rowOf (transition r p)) ps

theorem applyAll_advances (w : Nat) (ss : List Sample) (x : Encoder) :
    (x.applyAll w (ss.map .advance)).state = rowAfter x.state ss := by
  induction ss generalizing x with
  | nil => rfl
  | cons p ps ih => exact ih _

theorem outputs_advances (w : Nat) (ss : List Sample) (x : Encoder) :
    x.outputs w (ss.map .advance) = (eventsFrom x.state ss).map Outputs.ofEvent := by
  induction ss generalizing x with
  | nil => rfl
  | cons p ps ih => simp only [List.map_cons, Encoder.outputs, ih]; rfl

/-- STATE and the outputs of an encoder over a list of samples are a fold of the transition table. -/
theorem advances_run {s : State} {k : Nat} {x : Encoder} (h : s.encoders[k]? = some x) (ss : List Sample) :
    stateAfter k (advances k ss) s = some (rowAfter x.state ss) ∧
    ownOutputs k (advances k ss) s = (eventsFrom x.state ss).map Outputs.ofEvent := by
  obtain ⟨t, ht, hy, _, ho⟩ := own_stream (ss.map .advance) h
  have hl : advances k ss = (ss.map Instr.advance).map (k, ·) := by simp [advances]
  rw [hl]
  refine ⟨?_, ho.trans (outputs_advances _ ss x)⟩
  rw [stateAfter, ht]
  simp [hy, applyAll_advances]

theorem rowAfter_append (r : Row) (as bs : List Sample) : rowAfter r (as ++ bs) = rowAfter (rowAfter r as) bs := by
  induction as generalizing r with
  | nil => rfl
  | cons p ps ih => exact ih _

theorem eventsFrom_append (r : Row) (as bs : List Sample) :
    eventsFrom r (as ++ bs) = eventsFrom r as ++ eventsFrom (rowAfter r as) bs := by
  induction as generalizing r with
  | nil => rfl
  | cons p ps ih => simp [eventsFrom, rowAfter, ih]

end Sys2Proof.Machine
end

