-- ==== Sys2Proof/Tests/Slice0.lean ====
section
/-! SUPPORT. Tests. Expected values come from spec/95_test_vectors.md (the vector's id stands with each) or from the words of
30_encoding.md; the witnesses at the end meet the hypotheses of the statements in Certificates/Slice0/Obligations.lean. -/

namespace Sys2Proof.Tests

open Sys2Proof.Machine

/-! ## Helpers -/

/-- A device of one encoder with the registers `r` and `ts`. -/
def one (r : Row) (ts : Nat) (w : Nat := 32) (window : Nat := 100) : State :=
  { State.boot { w := w, tReset := 0, outMode := .packed, encoders := [] } with
    encoders := [{ cfg := { id := 0, pins := { clk := 2, dt := 3, sw := some 4 }, window := window },
                   state := r, lastTs := ts, out := Outputs.allLow }] }

/-- The device of vector E1 (`State.reset`) with these stimuli to come. -/
def fed (l : List Stimulus) : State := { State.reset with inputs := l }

/-- The next state, if there is one. -/
def nextOf : Host.Outcome State Fault Refusal → Option State
  | .next t => some t
  | .fault _ => none
  | .refused _ => none

/-- STATE, LAST_TS and the outputs of encoder `k` after an outcome. -/
def after (k : Nat) (o : Host.Outcome State Fault Refusal) : Option (Row × Nat × Outputs) :=
  (nextOf o).bind fun t => t.encoders[k]?.map fun x => (x.state, x.lastTs, x.out)

/-! ## Well-formedness: an ill-formed term for each check -/

theorem test_click_operand_too_wide : Instr.wellFormed 8 (.click 256) = false := by decide
theorem test_click_operand_widest : Instr.wellFormed 8 (.click 255) = true := by decide

/-- A configuration to spoil. -/
def good : DeviceConfig := DeviceConfig.standard

theorem test_standard_wellFormed : good.wellFormed = true ∧ good.pinsDistinct = true := by decide
theorem test_width_zero_refused : DeviceConfig.widthsOk { good with w := 0, encoders := [] } = false := by decide
theorem test_tReset_too_wide_refused : DeviceConfig.widthsOk { good with tReset := 2 ^ 32 } = false := by decide
theorem test_window_too_wide_refused : DeviceConfig.widthsOk { good with w := 6 } = false := by decide
theorem test_no_encoder_refused : DeviceConfig.hasEncoder { good with encoders := [] } = false := by decide
theorem test_same_id_refused :
    DeviceConfig.idsDistinct { good with encoders := good.encoders ++ good.encoders } = false := by decide
theorem test_packed_id_16_refused :
    DeviceConfig.idsFit { good with encoders := [{ id := 16, pins := ⟨1, 2, none⟩, window := 100 }] } = false := by decide
theorem test_shared_pin_refused :
    DeviceConfig.pinsDistinct { good with encoders := [{ id := 0, pins := ⟨1, 2, some 1⟩, window := 100 }] } = false := by
  decide

/-! ## Decoding: words written out from R61 to R65 -/

theorem test_decode_nop_0000 : decode 32 0b0000#4 5 = .ok .nop := by decide
theorem test_decode_nop_0011 : decode 32 0b0011#4 5 = .ok .nop := by decide
theorem test_decode_advance_clk : decode 32 0b0110#4 5 = .ok (.advance 0b10#2) := by decide
theorem test_decode_advance_dt : decode 32 0b0101#4 5 = .ok (.advance 0b01#2) := by decide
theorem test_decode_click_1000 : decode 32 0b1000#4 1100 = .ok (.click 1100) := by decide
theorem test_decode_click_1011 : decode 32 0b1011#4 1100 = .ok (.click 1100) := by decide
theorem test_decode_reserved_1101 : decode 32 0b1101#4 5 = .error .reservedOp := by decide
theorem test_decode_port_width : decode 8 0b1000#4 300 = .ok (.click 44) := by decide
theorem test_table_words :
    [0, 3, 4, 7, 8, 11, 12, 16].map (decodeTableWord 8) =
      [some .nop, some .nop, some (.advance 0), some (.advance 3), some (.click 0), some (.click 0), none, none] := by
  decide

/-! ## One step each -/

/-- N1. -/
theorem test_nop : after 0 (exec .nop (one .cw2 7)) = some (.cw2, 7, ⟨false, false, false⟩) := by decide
/-- A13: the CLOCKWISE event. -/
theorem test_advance_cw : after 0 (exec (.advance 0b00#2) (one .cw3 7)) = some (.start, 7, ⟨true, false, false⟩) := by decide
/-- A26: a jump of both pins. -/
theorem test_advance_fault : after 0 (exec (.advance 0b01#2) (one .acw3 7)) = some (.fault, 7, ⟨false, false, false⟩) := by
  decide
/-- C18: the boundary across a wrap. -/
theorem test_click_accept : after 0 (exec (.click 44) (one .cw3 200 8)) = some (.cw3, 44, ⟨false, false, true⟩) := by decide
/-- C19: one unit short of it. -/
theorem test_click_reject : after 0 (exec (.click 43) (one .cw3 200 8)) = some (.cw3, 200, ⟨false, false, false⟩) := by decide
/-- N6: reset overrides an ADVANCE that would emit. -/
theorem test_reset_overrides :
    after 0 (step { one .cw3 5 with inputs := [.drive 0 ⟨0b0100#4, 9, true⟩] }) =
      some (.start, 0, ⟨false, false, false⟩) := by decide
/-- N4. -/
theorem test_reserved_refused : step (fed [.drive 0 ⟨0b1100#4, 0, false⟩]) = .refused .reservedCommand := by rfl
/-- The word `0110` placed for the first step after reset is an ADVANCE of encoder 0 (A3). -/
theorem test_fetched_word :
    after 0 (step (State.reset.withFetchWord 8 0b0110)) = some (.cw1, 0, ⟨false, false, false⟩) := by decide

/-! ## The environment -/

/-- E1: ADVANCE `10` to e1 only. -/
theorem test_rotation_trigger :
    (after 0 (step (fed [.rotation 6 true false])), after 1 (step (fed [.rotation 6 true false]))) =
      (some (.start, 0, ⟨false, false, false⟩), some (.cw1, 0, ⟨false, false, false⟩)) := by decide
/-- E3: a rejected click is returned and not emitted. -/
theorem test_click_trigger_rejected :
    (nextOf (step { one .start 250 with inputs := [.click 4 300] })).map (fun t => (t.returned, t.emission)) =
      some (.click 0 false, none) := by decide
/-- E5: the event is returned, and the packed byte is `0x10*ID(0) + 0`. -/
theorem test_rotation_event_emitted :
    (nextOf (step { one .cw3 0 with inputs := [.rotation 2 false false] })).map (fun t => (t.returned, t.emission)) =
      some (.rotation 0 .clockwise, some (.packed 0x00#8)) := by decide
/-- L1-9: id 1 ACW, id 2 CLICK, id 15 CLICK. -/
theorem test_packed_bytes :
    (packedByte 1 .acw, packedByte 2 .click, packedByte 15 .click) = (0x11#8, 0x22#8, 0xF2#8) := by decide
/-- R124: a fall of SW runs the click handler and a rise runs none. -/
theorem test_sw_edges :
    ((State.reset.pinEdge 4 true false false false 9).inputs, (State.reset.pinEdge 4 false true false false 9).inputs) =
      ([.click 4 9], []) := by decide

/-! ## Witnesses: a concrete state and operands for the hypotheses of each statement -/

/-- The encoder of `one`. -/
def enc (r : Row) (ts : Nat) (window : Nat := 100) : Encoder :=
  { cfg := { id := 0, pins := { clk := 2, dt := 3, sw := some 4 }, window := window },
    state := r, lastTs := ts, out := Outputs.allLow }

/-- "The device has an encoder `k`, and it is `x`", for encoder 0 and for the last encoder: the hypothesis of the statements on one
command, and of the statements on streams that take no row as given. -/
theorem witness_encoder :
    (one .cw3 5).encoders[(one .cw3 5).sel]? = some (enc .cw3 5) ∧ State.reset.encoders[1]?.isSome = true := by decide

theorem witness_ResetLeavesStartAndTReset :
    DeviceConfig.standard.encoders[1]? = some { id := 1, pins := ⟨5, 6, none⟩, window := 100 } := by decide

theorem witness_ResetStepOverridesCommand :
    (fed [.drive 7 ⟨0b1111#4, 9, true⟩]).inputs = [.drive 7 ⟨0b1111#4, 9, true⟩] ∧
    (⟨0b1111#4, 9, true⟩ : Ports).rst = true := by decide

/-- A reset, then a stream with ADVANCEs and a NOP to encoder 0 and a CLICK to encoder 1. -/
theorem witness_FirstClickAfterResetUsesTReset :
    let s := fed [.drive 0 ⟨0b0110#4, 9, true⟩]
    let cs : List (Nat × Instr) := [(0, .advance 2), (1, .click 500), (0, .nop), (0, .advance 3)]
    ((nextOf (step s)).bind fun r => nextOf (runCommands cs r)).isSome = true ∧ s.encoders[0]?.isSome = true ∧
    ∀ c ∈ cs, ∀ n, c ≠ (0, Instr.click n) := by
  refine ⟨by decide, by decide, ?_⟩
  simp

theorem witness_DecodeOfEncode : Instr.wellFormed 8 (.click 255) = true ∧ Instr.wellFormed 1 (.advance 3) = true := by decide

theorem witness_EncodeOfDecode :
    decode 8 0b0110#4 0 = .ok (.advance 2) ∧ (0b0110#4 : CmdWord).extractLsb' 2 2 = 0b01#2 ∧
    decode 8 0b1011#4 256 = .ok (.click 0) ∧ (0b1011#4 : CmdWord).extractLsb' 2 2 = 0b10#2 := by decide

theorem witness_ReservedWordRefused :
    (fed [.drive 9 ⟨0b1100#4, 0, false⟩]).inputs = [.drive 9 ⟨0b1100#4, 0, false⟩] ∧
    (0b1100#4 : CmdWord).extractLsb' 2 2 = 0b11#2 := by decide

theorem witness_StepRunsDecodedCommand :
    (fed [.drive 1 ⟨0b1000#4, 70, false⟩]).inputs = [.drive 1 ⟨0b1000#4, 70, false⟩] ∧
    decode (fed []).w 0b1000#4 70 = .ok (.click 70) := by decide

theorem witness_StepRunsFetchedWord : 0b1000 < 2 ^ 4 ∧ decode State.reset.w (BitVec.ofNat 4 0b1000) 0 = .ok (.click 0) := by
  decide

theorem witness_EmptyInputsIsAnIdleStep : (one .acw2 7).inputs = [] := by decide

/-- A step that answers a next state, by a trigger, a command, a reset and with nothing there (StepTakesOneStimulus,
StepKeepsConfiguration). -/
theorem witness_step_next :
    (nextOf (step (fed [.rotation 5 true true, .click 4 9]))).isSome = true ∧
    (nextOf (step (fed [.drive 1 ⟨0b1000#4, 500, false⟩]))).isSome = true ∧
    (nextOf (step (fed [.drive 1 ⟨0b1100#4, 0, true⟩]))).isSome = true ∧ (nextOf (step (fed []))).isSome = true := by decide

/-- Both stops: a reserved word, and a command to encoder `N_ENC`. -/
theorem witness_StepStopsOnlyByName :
    step (fed [.drive 0 ⟨0b1111#4, 0, false⟩]) = .refused .reservedCommand ∧
    step (fed [.drive 2 ⟨0b0000#4, 0, false⟩]) = .refused .noSuchEncoder := ⟨rfl, rfl⟩

/-- Both clauses, where they meet: 100 units elapsed and 99 (C3, C2). -/
theorem witness_ClickAcceptsAfterWindow :
    (one .start 1000).encoders[0]? = some (enc .start 1000) ∧
    ((enc .start 1000).cfg.window : Int) ≤ (((1100 : Nat) : Int) - ((enc .start 1000).lastTs : Nat)) % 2 ^ 32 ∧
    (((1099 : Nat) : Int) - ((enc .start 1000).lastTs : Nat)) % 2 ^ 32 < ((enc .start 1000).cfg.window : Int) := by decide

/-- Both clauses: another encoder, and a device with the same encoder 0 and no other. -/
theorem witness_CommandsLeaveOtherEncodersAlone :
    (nextOf (exec (.click 500) State.reset)).isSome = true ∧ State.reset.sel ≠ 1 ∧ State.reset.encoders[1]?.isSome = true ∧
    { State.reset with encoders := State.reset.encoders.take 1 }.encoders[0]? = State.reset.encoders[0]? := by
  decide

theorem witness_AbsentEncoderRefused : State.reset.encoders.length ≤ { State.reset with sel := 2 }.sel := by decide

/-- Each clause of EventsOnlyFromThirdRowOnIdle: both events and a step into FAULT. -/
theorem witness_EventsOnlyFromThirdRowOnIdle :
    after 0 (exec (.advance 0) (one .cw3 0)) = some (.start, 0, ⟨true, false, false⟩) ∧
    after 0 (exec (.advance 0) (one .acw3 0)) = some (.start, 0, ⟨false, true, false⟩) ∧
    after 0 (exec (.advance 2) (one .cw3 0)) = some (.fault, 0, ⟨false, false, false⟩) := by decide

/-- Each clause of RowTellsLastSample: every row is entered, START both on `00` and on `11`. -/
theorem witness_RowTellsLastSample :
    [(Row.start, 0b10#2), (.cw1, 0b11#2), (.cw2, 0b01#2), (.start, 0b01#2), (.acw1, 0b11#2), (.acw2, 0b10#2), (.cw3, 0b00#2),
     (.start, 0b11#2), (.acw1, 0b10#2)].map (fun p => (after 0 (exec (.advance p.2) (one p.1 0))).map (·.1)) =
    [some Row.cw1, some .cw2, some .cw3, some .acw1, some .acw2, some .acw3, some .start, some .start, some .fault] := by decide

theorem witness_FaultHoldsUntilIdleSample :
    (one .fault 0).encoders[0]? = some (enc .fault 0) ∧ (0b00#2 : Sample) ∉ ([0b01#2, 0b11#2, 0b10#2] : List Sample) := by
  decide

/-- The three rows of ReversalKeepsDirection. -/
theorem witness_ReversalKeepsDirection :
    (one .cw2 0).encoders[0]? = some (enc .cw2 0) ∧ (one .acw2 0).encoders[0]? = some (enc .acw2 0) ∧
    (one .start 0).encoders[0]? = some (enc .start 0) := by decide

/-- Both events of EventNeedsFullCycle (L1-4 and L1-3). -/
theorem witness_EventNeedsFullCycle :
    (ownOutputs 0 (advances 0 ([0, 2, 0, 2, 3, 1] ++ [0])) (one .start 0)).getLast? = some ⟨true, false, false⟩ ∧
    (ownOutputs 0 (advances 0 ([0, 1, 3, 2] ++ [0])) (one .start 0)).getLast? = some ⟨false, true, false⟩ := by decide

/-- START, the row that EveryRowIsReachable, EventNeedsFourSamples and OneMissedSampleLosesAtMostTwoTurns take as given. -/
theorem witness_start : (one .start 0).encoders[0]? = some (enc .start 0) ∧ (enc .start 0).state = .start := by decide

/-- Each clause of the number of lost events, over three cycles, at its boundary. -/
theorem witness_OneMissedSampleLosesAtMostTwoTurns :
    [0, 1, 3, 4, 5, 8, 11, 12].map (lostEvents 3) = [0, 1, 1, 2, 1, 2, 1, 1] ∧ 12 ≤ 4 * 3 := by decide

/-- C8 and C9: both answers of RolloverDoesNotFoolTheTest. -/
theorem witness_RolloverDoesNotFoolTheTest :
    (one .start 0xFFFFFFD0).encoders[0]? = some (enc .start 0xFFFFFFD0) ∧ 98 < 2 ^ (one .start 0).w ∧ 100 < 2 ^ (one .start 0).w ∧
    (0xFFFFFFD0 + 98) % 2 ^ 32 = 50 ∧ (0xFFFFFFD0 + 100) % 2 ^ 32 = 52 := by decide

theorem witness_WholePeriodsAreAliased :
    (one .start 10 8).encoders[0]? = some (enc .start 10) ∧ (enc .start 10).cfg.window < 2 ^ 8 ∧ 1 ≤ 1 ∧
    99 < (enc .start 10).cfg.window := by decide

/-- C6 and C5: WINDOW = 0 and WINDOW = 100. -/
theorem witness_ZeroWindowAndSameTimestamp :
    (one .start 1000 32 0).encoders[0]? = some (enc .start 1000 0) ∧ (enc .start 1000 0).cfg.window = 0 ∧
    after 0 (exec (.click 1000) (one .start 1000)) = some (.start, 1000, ⟨false, false, false⟩) := by decide

/-- P3, steps 2 to 5: an accepted click, two rejected ones, an accepted one. -/
theorem witness_RejectedClicksDoNotExtendWindow :
    after 0 (exec (.click 120) (one .start 0 8)) = some (.start, 120, ⟨false, false, true⟩) ∧
    (∀ o ∈ ownOutputs 0 [(0, .click 130), (0, .click 219)] (one .start 120 8), o.click = false) ∧
    lastTsAfter 0 [(0, .click 130), (0, .click 219)] (one .start 120 8) = some 120 ∧
    after 0 (exec (.click 220) (one .start 120 8)) = some (.start, 220, ⟨false, false, true⟩) := by decide

/-- P4, its first commands to both encoders. -/
theorem witness_InterleavingDoesNotMatter :
    (nextOf (runCommands [(0, .advance 2), (1, .advance 1), (0, .advance 3), (1, .click 5000)] State.reset)).isSome = true := by
  decide

/-- Each clause of OnlyOwnCommandWritesARegister: STATE by a command, STATE by a trigger, LAST_TS by an accepted click. -/
theorem witness_OnlyOwnCommandWritesARegister :
    after 1 (step (fed [.drive 1 ⟨0b0110#4, 0, false⟩])) = some (.cw1, 0, ⟨false, false, false⟩) ∧
    after 1 (step (fed [.rotation 6 false true])) = some (.acw1, 0, ⟨false, false, false⟩) ∧
    after 1 (step (fed [.drive 1 ⟨0b1000#4, 100, false⟩])) = some (.start, 100, ⟨false, false, true⟩) := by decide

/-- Two encoders that both drove `click` in the step before, and a click that encoder 1 accepts: only encoder 1 drives it. -/
theorem witness_AtMostOneOutputPerStep :
    let s := { fed [.drive 1 ⟨0b1000#4, 500, false⟩] with
               encoders := State.reset.encoders.map fun x => { x with out := Outputs.ofClick true } }
    (after 0 (step s), after 1 (step s)) = (some (.start, 0, ⟨false, false, false⟩), some (.start, 500, ⟨false, false, true⟩)) := by
  decide

/-- A step in which an encoder drives an output (AtMostOneOutputPerStep, OneRecordPerEvent), for each output. -/
theorem witness_OneRecordPerEvent :
    after 0 (step { one .cw3 0 with inputs := [.rotation 2 false false] }) = some (.start, 0, ⟨true, false, false⟩) ∧
    after 0 (step { one .acw3 0 with inputs := [.rotation 3 false false] }) = some (.start, 0, ⟨false, true, false⟩) ∧
    after 0 (step { one .acw3 0 with inputs := [.click 4 100] }) = some (.acw3, 100, ⟨false, false, true⟩) := by decide

theorem witness_StepKeepsInvariant :
    (fed [.drive 0 ⟨0b1000#4, 2 ^ 32 + 700, false⟩]).Inv ∧
    (nextOf (step (fed [.drive 0 ⟨0b1000#4, 2 ^ 32 + 700, false⟩]))).isSome = true := by
  constructor <;> decide

/-- A legal environment: CLICK to encoder 0, which has the switch, with the largest `now`; ADVANCE and NOP to both; a reset. -/
theorem witness_LegalEnvironmentNeverStops :
    (fed [.drive 0 ⟨0b1011#4, 2 ^ 32 - 1, false⟩, .drive 1 ⟨0b0110#4, 0, false⟩, .drive 1 ⟨0b0000#4, 0, false⟩,
      .drive 9 ⟨0b1111#4, 0, true⟩, .rotation 9 true true, .click 4 7]).LegalEnvironment := by
  decide

/-- Not legal: CLICK to encoder 1, which has no switch (R142; it runs all the same, log 11), a `now` of more than W bits, a reserved
word, and a command to an absent encoder. -/
theorem test_illegal_moves :
    [Stimulus.drive 1 ⟨0b1000#4, 5, false⟩, .drive 0 ⟨0b1000#4, 2 ^ 32, false⟩, .click 4 (2 ^ 32), .drive 0 ⟨0b1100#4, 0, false⟩,
     .drive 2 ⟨0b0000#4, 0, false⟩].map (fun x => (x.legal good, x.runs 2)) =
    [(false, true), (false, true), (false, true), (false, false), (false, false)] := by
  decide

/-- E1: p6 is first claimed by e1. -/
theorem witness_RotationTriggerAdvancesOwner :
    State.reset.encoders[1]?.map (·.cfg.pins.dt) = some 6 ∧
    State.reset.encoders[0]?.map (fun x => (x.cfg.pins.clk, x.cfg.pins.dt)) = some (2, 3) := by decide

/-- E3: p4 is the SW pin of e0. -/
theorem witness_ClickTriggerClicksOwner :
    State.reset.encoders[0]?.map (·.cfg.pins.sw) = some (some 4) ∧ 300 < 2 ^ State.reset.w := by decide

/-- E2 and E4: p9 is no pin of any encoder, and p5 is no SW pin. -/
theorem witness_UnclaimedTriggerDoesNothing :
    (∀ x ∈ State.reset.encoders, x.cfg.pins.clk ≠ 9 ∧ x.cfg.pins.dt ≠ 9) ∧
    (∀ x ∈ State.reset.encoders, x.cfg.pins.sw ≠ some 5) := by decide

/-- Distinct pins, an encoder with a switch and one without (DistinctPinsHaveOneOwner, PinEdgesRunTheRegisteredHandler). -/
theorem witness_distinct_pins :
    State.reset.config.pinsDistinct = true ∧ State.reset.encoders[0]?.map (·.cfg.pins.hasSw) = some true ∧
    State.reset.encoders[1]?.map (·.cfg.pins.hasSw) = some false := by decide

/-- A NOP to encoder 0 put into the stream of P4's first commands. -/
theorem witness_NopBetweenCommandsChangesNothing :
    0 < State.reset.encoders.length ∧
    (nextOf (runCommands ([(0, .advance 2), (1, .advance 1)] ++ [(0, .advance 3), (1, .click 5000)]) State.reset)).isSome = true := by
  decide

theorem witness_EmittedRecordFormat : 15 ≤ 15 ∧ packedByte 15 .click = 0xF2#8 := by decide

end Sys2Proof.Tests
end

section
/-! PROOF. Noninterference of one command (R30): the frame of the command is what it leaves alone, and the addressed encoder after
it is a function of that encoder, the command and the timestamp width. -/

namespace Sys2Proof.Machine

/-- A command that completes was addressed to an encoder of the device; the frame and that encoder after it. -/
theorem exec_next_encoder {i : Instr} {s t : State} (h : exec i s = .next t) :
    ∃ x, s.encoders[s.sel]? = some x ∧ s.FrameOutside s.sel t ∧ t.encoders[s.sel]? = some (x.apply s.w i) := by
  obtain ⟨hlt, rfl⟩ := exec_next h
  have hx := List.getElem?_eq_getElem hlt
  exact ⟨_, hx, State.performed_frame _ s, by simp [hx]⟩

/-- Settles O18: other encoders by the frame of the command; the addressed encoder ends as `x.apply s.w i`, which no other encoder
enters into. -/
theorem commandsLeaveOtherEncodersAlone : Obligations.CommandsLeaveOtherEncodersAlone := by
  intro i s t h
  obtain ⟨x, hx, hframe, ht⟩ := exec_next_encoder h
  constructor
  · intro j y hj hy
    exact ⟨_, hframe.others j y hj hy, rfl, rfl, rfl⟩
  · intro s' hw hsel hown
    have hx' : s'.encoders[s'.sel]? = some x := by rw [hsel, hown, hx]
    obtain ⟨t', h', _, ht'⟩ := exec_completes (i := i) hx'
    rw [hsel, hw] at ht'
    exact ⟨t', h', ht'.trans ht.symm⟩

end Sys2Proof.Machine
end

section
/-! PROOF. Ordering of two commands to one encoder (R50): ADVANCE reads and writes STATE alone and CLICK reads and writes LAST_TS
alone, so neither order changes what the other command does. -/

namespace Sys2Proof.Machine

@[simp] theorem Encoder.idle_regs (x : Encoder) : x.idle.regs = x.regs := rfl

/-- The registers after both commands do not depend on their order. -/
theorem Encoder.click_advance_regs (w now : Nat) (p : Sample) (x : Encoder) :
    ((x.advance p).click w now).regs = ((x.click w now).advance p).regs := rfl

/-- An ADVANCE before a CLICK does not change what the CLICK drives. -/
theorem Encoder.click_advance_out (w now : Nat) (p : Sample) (x : Encoder) :
    ((x.advance p).click w now).out = (x.click w now).out := rfl

/-- A CLICK before an ADVANCE does not change what the ADVANCE drives. -/
theorem Encoder.advance_click_out (w now : Nat) (p : Sample) (x : Encoder) :
    ((x.click w now).advance p).out = (x.advance p).out := rfl

/-- The registers of the whole device after an ADVANCE and a CLICK to encoder `k` do not depend on their order. -/
theorem State.regs_after_advance_click (k now : Nat) (p : Sample) (s : State) :
    ((s.after k (.advance p)).after k (.click now)).encoders.map Encoder.regs =
      ((s.after k (.click now)).after k (.advance p)).encoders.map Encoder.regs := by
  apply List.ext_getElem?
  intro j
  by_cases hj : j = k
  · simp [hj, Encoder.apply, Function.comp_def, Encoder.click_advance_regs]
  · simp [hj, Function.comp_def]

/-- Two commands to an encoder of the device complete and end in the state after both. -/
theorem runCommands_pair {s : State} {k : Nat} (hk : k < s.encoders.length) (i i' : Instr) :
    runCommands [(k, i), (k, i')] s = .next ((s.after k i).after k i') :=
  runCommands_cons.mpr ⟨hk, runCommands_cons.mpr ⟨by simpa using hk, rfl⟩⟩

/-- What encoder `k` drives in two commands to it. -/
theorem ownOutputs_pair {s : State} {k : Nat} {x : Encoder} (hx : s.encoders[k]? = some x) (i i' : Instr) :
    ownOutputs k [(k, i), (k, i')] s = [(x.apply s.w i).out, ((x.apply s.w i).apply s.w i').out] :=
  have ⟨_, _, _, _, ho⟩ := own_stream [i, i'] hx
  ho

/-- Settles O35: in each order the second command drives, and leaves in its register, what it would have as the first. -/
theorem advanceAndClickCommute : Obligations.AdvanceAndClickCommute := by
  intro s k x p now hx
  have hk := lt_of_encoder hx
  refine ⟨_, _, (x.advance p).out, (x.click s.w now).out, runCommands_pair hk _ _, runCommands_pair hk _ _,
    State.regs_after_advance_click k now p s, ?_, ?_⟩
  · simp only [ownOutputs_pair hx, Encoder.apply, Encoder.click_advance_out]
  · simp only [ownOutputs_pair hx, Encoder.apply, Encoder.advance_click_out]

end Sys2Proof.Machine
end

section
/-! PROOF. Interleaving of streams (R49). Two states agree on encoder `k` when it differs in its outputs at most, which no command
reads. A command to another encoder keeps the agreement on one side, a command to `k` on both, so a stream and the part of it that
goes to `k` stay in agreement. -/

namespace Sys2Proof.Machine

/-- The timestamp width and encoder `k`, its outputs aside, are the same in both states (or both devices lack an encoder `k`). -/
structure State.AgreeOn (k : Nat) (s u : State) : Prop where
  w       : s.w = u.w
  encoder : s.encoders[k]?.map Encoder.idle = u.encoders[k]?.map Encoder.idle

theorem State.AgreeOn.refl (k : Nat) (s : State) : s.AgreeOn k s := ⟨rfl, rfl⟩

@[simp] theorem Encoder.idle_idle (x : Encoder) : x.idle.idle = x.idle := rfl

/-- No command reads the outputs of an earlier step (log 5). -/
theorem Encoder.apply_idle (w : Nat) (i : Instr) (x : Encoder) : x.idle.apply w i = x.apply w i := by
  cases i <;> rfl

theorem State.AgreeOn.lt_length {k : Nat} {s u : State} (h : s.AgreeOn k u) (hk : k < s.encoders.length) :
    k < u.encoders.length := by
  have hsome := congrArg Option.isSome h.encoder
  simpa [hk] using hsome

theorem State.AgreeOn.regs {k : Nat} {s u : State} (h : s.AgreeOn k u) :
    s.encoders[k]?.map Encoder.regs = u.encoders[k]?.map Encoder.regs := by
  have hregs := congrArg (Option.map Encoder.regs) h.encoder
  simpa [Function.comp_def] using hregs

/-- A command to another encoder leaves the agreement as it is. -/
theorem State.AgreeOn.after_other {j k : Nat} {s u : State} (h : s.AgreeOn k u) (hj : j ≠ k) (i : Instr) :
    (s.after j i).AgreeOn k u where
  w := h.w
  encoder := by simpa [hj.symm, Function.comp_def] using h.encoder

/-- After the same command to encoder `k` in both states it is the same encoder, outputs included. -/
theorem State.AgreeOn.after_own_encoder {k : Nat} {s u : State} (h : s.AgreeOn k u) (i : Instr) :
    (s.after k i).encoders[k]? = (u.after k i).encoders[k]? := by
  have happly := congrArg (Option.map (Encoder.apply u.w i)) h.encoder
  simpa [Function.comp_def, Encoder.apply_idle, h.w] using happly

theorem State.AgreeOn.after_own {k : Nat} {s u : State} (h : s.AgreeOn k u) (i : Instr) :
    (s.after k i).AgreeOn k (u.after k i) where
  w := h.w
  encoder := congrArg (Option.map Encoder.idle) (h.after_own_encoder i)

/-- From states that agree on encoder `k`, a stream and its commands to `k` alone end in agreement and drive the same outputs of
`k`. -/
theorem State.AgreeOn.run_filter {k : Nat} {cs : List (Nat × Instr)} {s t u : State} (h : s.AgreeOn k u)
    (ht : runCommands cs s = .next t) :
    ∃ v, runCommands (cs.filter fun c => c.1 == k) u = .next v ∧ t.AgreeOn k v ∧
      ownOutputs k cs s = ownOutputs k (cs.filter fun c => c.1 == k) u := by
  induction cs generalizing s u with
  | nil =>
    cases ht
    exact ⟨u, rfl, h, rfl⟩
  | cons c cs ih =>
    obtain ⟨j, i⟩ := c
    obtain ⟨hj, ht⟩ := runCommands_cons.mp ht
    by_cases hjk : j = k
    · subst hjk
      have hu := h.lt_length hj
      obtain ⟨v, hv, hagree, hout⟩ := ih (h.after_own i) ht
      rw [List.filter_cons_of_pos (by simp)]
      refine ⟨v, runCommands_cons.mpr ⟨hu, hv⟩, hagree, ?_⟩
      rw [ownOutputs_cons hj, ownOutputs_cons hu, h.after_own_encoder i, hout]
    · obtain ⟨v, hv, hagree, hout⟩ := ih (h.after_other hjk i) ht
      rw [List.filter_cons_of_neg (by simpa using hjk)]
      refine ⟨v, hv, hagree, ?_⟩
      rw [ownOutputs_cons hj, if_neg hjk, List.nil_append, hout]

/-- Settles O36: both streams start from one state, which agrees with itself on encoder `k`. -/
theorem interleavingDoesNotMatter : Obligations.InterleavingDoesNotMatter := by
  intro cs s t k ht
  obtain ⟨u, hu, hagree, hout⟩ := (State.AgreeOn.refl k s).run_filter ht
  exact ⟨u, hu, hagree.regs, hout⟩

end Sys2Proof.Machine
end

section
/-! PROOF. One ADVANCE (R80 to R90): the addressed encoder ends as `x.advance p`, so each statement about a step is a fact about one
cell of the transition table. The facts stand first, then the statements. -/

namespace Sys2Proof.Machine

/-! Codes and outputs of the next-state value -/

/-- `row(NS) = NS[2:0]` (R83). -/
theorem rowOf_code (ns : RotationState) : (rowOf ns).code = ns.code.extractLsb' 0 3 := by
  simp [rowOf]

/-- The event's code is the pair `{NS[4], NS[3]}` (R84). -/
theorem eventOf_code (ns : RotationState) : (eventOf ns).code = ns.code.extractLsb' 3 2 := by
  cases ns <;> rfl

/-- `out.cw = NS[3]` (R80). -/
theorem ofEvent_eventOf_cw (ns : RotationState) : (Outputs.ofEvent (eventOf ns)).cw = ns.code.getLsbD 3 := by
  cases ns <;> rfl

/-- `out.acw = NS[4]` (R80). -/
theorem ofEvent_eventOf_acw (ns : RotationState) : (Outputs.ofEvent (eventOf ns)).acw = ns.code.getLsbD 4 := by
  cases ns <;> rfl

@[simp] theorem ofEvent_none : Outputs.ofEvent .none = Outputs.allLow := rfl

@[simp] theorem ofEvent_cw_iff (ev : RotationEvent) : (Outputs.ofEvent ev).cw = true ↔ ev = .clockwise := by
  simp [Outputs.ofEvent]

@[simp] theorem ofEvent_acw_iff (ev : RotationEvent) : (Outputs.ofEvent ev).acw = true ↔ ev = .antiClockwise := by
  simp [Outputs.ofEvent]

/-- Only the row FAULT is stored as FAULT. -/
theorem rowOf_eq_fault_iff (ns : RotationState) : rowOf ns = .fault ↔ ns = .fault := by
  cases ns <;> simp

/-! The cells of the table -/

/-- The two tables of R81 agree cell for cell. -/
theorem transition_code (r : Row) (p : Sample) : (transition r p).code = nextCode r.code p := by
  obtain rfl | rfl | rfl | rfl := sample_cases p <;> cases r <;> rfl

/-- The row START holds no finish and no FAULT. -/
theorem transition_start_cases (p : Sample) :
    transition .start p = .start ∨ transition .start p = .acw1 ∨ transition .start p = .cw1 := by
  obtain rfl | rfl | rfl | rfl := sample_cases p <;> simp [tableRow]

/-- Column `00`: every cell leads to START (R87). -/
theorem rowOf_transition_00 (r : Row) : rowOf (transition r 0b00#2) = .start := by
  cases r <;> rfl

/-- Column `01`. -/
theorem rowOf_transition_01 (r : Row) :
    rowOf (transition r 0b01#2) = .acw1 ∨ rowOf (transition r 0b01#2) = .cw3 ∨ rowOf (transition r 0b01#2) = .fault := by
  cases r <;> simp [tableRow]

/-- Column `10`. -/
theorem rowOf_transition_10 (r : Row) :
    rowOf (transition r 0b10#2) = .cw1 ∨ rowOf (transition r 0b10#2) = .acw3 ∨ rowOf (transition r 0b10#2) = .fault := by
  cases r <;> simp [tableRow]

/-- Column `11`: START only stays where it is. -/
theorem rowOf_transition_11 (r : Row) :
    rowOf (transition r 0b11#2) = .cw2 ∨ rowOf (transition r 0b11#2) = .acw2 ∨ rowOf (transition r 0b11#2) = .fault ∨
    (r = .start ∧ rowOf (transition r 0b11#2) = .start) := by
  cases r <;> simp [tableRow]

/-- The one cell with the clockwise marker is (CW3, `00`) (R88). -/
theorem transition_eq_cwFinish_iff (r : Row) (p : Sample) : transition r p = .cwFinish ↔ r = .cw3 ∧ p = 0b00#2 := by
  obtain rfl | rfl | rfl | rfl := sample_cases p <;> cases r <;> simp [tableRow]

/-- The one cell with the anticlockwise marker is (ACW3, `00`) (R88). -/
theorem transition_eq_acwFinish_iff (r : Row) (p : Sample) : transition r p = .acwFinish ↔ r = .acw3 ∧ p = 0b00#2 := by
  obtain rfl | rfl | rfl | rfl := sample_cases p <;> cases r <;> simp [tableRow]

/-- CLOCKWISE is driven exactly from CW3 on `00` (R88). -/
theorem transition_out_cw_iff (r : Row) (p : Sample) :
    (Outputs.ofEvent (eventOf (transition r p))).cw = true ↔ r = .cw3 ∧ p = 0b00#2 := by
  rw [ofEvent_cw_iff, eventOf_clockwise_iff, transition_eq_cwFinish_iff]

/-- ANTI_CLOCKWISE is driven exactly from ACW3 on `00` (R88). -/
theorem transition_out_acw_iff (r : Row) (p : Sample) :
    (Outputs.ofEvent (eventOf (transition r p))).acw = true ↔ r = .acw3 ∧ p = 0b00#2 := by
  rw [ofEvent_acw_iff, eventOf_antiClockwise_iff, transition_eq_acwFinish_iff]

/-- A sample leaves each row of its own column where it is: `T(row, s) = row` without a marker, after a step with `s` (R89). -/
theorem transition_of_repeated_sample (r : Row) (p : Sample) :
    rowOf (transition (rowOf (transition r p)) p) = rowOf (transition r p) ∧
    eventOf (transition (rowOf (transition r p)) p) = .none := by
  obtain rfl | rfl | rfl | rfl := sample_cases p
  · rw [rowOf_transition_00 r]
    exact ⟨rfl, rfl⟩
  · obtain h | h | h := rowOf_transition_01 r <;> rw [h] <;> exact ⟨rfl, rfl⟩
  · obtain h | h | h := rowOf_transition_10 r <;> rw [h] <;> exact ⟨rfl, rfl⟩
  · obtain h | h | h | ⟨_, h⟩ := rowOf_transition_11 r <;> rw [h] <;> exact ⟨rfl, rfl⟩

/-! The step -/

/-- ADVANCE completes on every encoder of the device; the frame and the encoder after it. -/
theorem exec_advance_completes {s : State} {x : Encoder} (h : s.encoders[s.sel]? = some x) (p : Sample) :
    ∃ t, exec (.advance p) s = .next t ∧ s.FrameOutside s.sel t ∧ t.encoders[s.sel]? = some (x.advance p) :=
  exec_completes h

/-- A second ADVANCE with the same sample is as good as no command. -/
theorem Encoder.advance_advance (p : Sample) (x : Encoder) : (x.advance p).advance p = (x.advance p).idle := by
  obtain ⟨hrow, hevent⟩ := transition_of_repeated_sample x.state p
  simp [Encoder.advance, Encoder.idle, hrow, hevent]

/-- Settles O19: the cells of `rowOf` by its lemmas, its codes and events by theirs. -/
theorem rowAndEventOfEachRotationState : Obligations.RowAndEventOfEachRotationState :=
  ⟨rowOf_cwFinish, rowOf_acwFinish, rowOf_start, rowOf_cw1, rowOf_cw2, rowOf_cw3, rowOf_acw1, rowOf_acw2, rowOf_acw3,
    rowOf_fault, transition_start_cases,
    fun ns => ⟨rowOf_code ns, eventOf_code ns, eventOf_clockwise_iff ns, eventOf_antiClockwise_iff ns⟩⟩

/-- Settles O16: the result is read off the code of NS, which is the cell of R81's second table. -/
theorem advanceFollowsTransitionTable : Obligations.AdvanceFollowsTransitionTable := by
  intro s x p hx
  obtain ⟨t, ht, hframe, hy⟩ := exec_advance_completes hx p
  refine ⟨fun now => decode_advanceWord s.w now p, t, x.advance p, ht, hframe, hy, ?_, ?_, ?_, rfl, rfl, rfl⟩
  · rw [Encoder.advance_state, rowOf_code, transition_code]
  · rw [Encoder.advance_out, ofEvent_eventOf_cw, transition_code]
  · rw [Encoder.advance_out, ofEvent_eventOf_acw, transition_code]

/-- Settles O20, by column `00` of the table. -/
theorem idleSampleSynchronises : Obligations.IdleSampleSynchronises := by
  intro s x hx
  obtain ⟨t, ht, _, hy⟩ := exec_advance_completes hx 0b00#2
  exact ⟨t, _, ht, hy, rowOf_transition_00 x.state⟩

/-- Settles O21: the finish states stand in one cell each, and FAULT is neither of them. -/
theorem eventsOnlyFromThirdRowOnIdle : Obligations.EventsOnlyFromThirdRowOnIdle := by
  intro s x p hx
  obtain ⟨t, ht, _, hy⟩ := exec_advance_completes hx p
  refine ⟨t, _, ht, hy, transition_out_cw_iff x.state p, transition_out_acw_iff x.state p, fun hfault => ?_⟩
  rw [Encoder.advance_state, rowOf_eq_fault_iff] at hfault
  rw [Encoder.advance_out, hfault]
  rfl

/-- Settles O22, by `Encoder.advance_advance`. -/
theorem repeatedSampleHasNoEffect : Obligations.RepeatedSampleHasNoEffect := by
  intro s x p hx
  obtain ⟨t, ht, hframe, hy⟩ := exec_advance_completes hx p
  obtain ⟨u, hu, _, hz⟩ := exec_advance_completes (hframe.sel.symm ▸ hy : t.encoders[t.sel]? = _) p
  exact ⟨t, _, u, _, ht, hy, hu, hframe.sel ▸ hz, Encoder.advance_advance p x⟩

/-- Settles O23: each column of the table holds the rows of its own sample and FAULT, and START outside column `00` only in the row
START. -/
theorem rowTellsLastSample : Obligations.RowTellsLastSample := by
  intro s x p hx
  obtain ⟨t, ht, _, hy⟩ := exec_advance_completes hx p
  refine ⟨t, _, ht, hy, ?_⟩
  rw [Encoder.advance_state]
  obtain rfl | rfl | rfl | rfl := sample_cases p
  · rw [rowOf_transition_00]
    simp
  · obtain h | h | h := rowOf_transition_01 x.state <;> rw [h] <;> simp
  · obtain h | h | h := rowOf_transition_10 x.state <;> rw [h] <;> simp
  · obtain h | h | h | ⟨hstart, h⟩ := rowOf_transition_11 x.state <;> rw [h]
    · simp
    · simp
    · simp
    · simp [hstart]

end Sys2Proof.Machine
end

section
/-! PROOF. Streams of samples (R86, R92 to R95): by `advances_run` STATE and the outputs are `rowAfter` and `eventsFrom`, so each
statement is an induction over the list of samples. -/

namespace Sys2Proof.Machine

/-! FAULT -/

theorem transition_fault_of_ne {p : Sample} (h : p ≠ 0b00#2) : transition .fault p = .fault := by
  obtain rfl | rfl | rfl | rfl := sample_cases p
  · exact absurd rfl h
  · rfl
  · rfl
  · rfl

/-- FAULT holds, silently, over a list of samples without `00`. -/
theorem fault_holds {ss : List Sample} (h : 0b00#2 ∉ ss) :
    rowAfter .fault ss = .fault ∧ ∀ e ∈ eventsFrom .fault ss, e = .none := by
  induction ss with
  | nil => exact ⟨rfl, by simp [eventsFrom]⟩
  | cons p ps ih =>
    obtain ⟨hrow, hevents⟩ := ih (List.not_mem_of_not_mem_cons h)
    have hcell := transition_fault_of_ne (List.ne_of_not_mem_cons h).symm
    simpa [rowAfter, eventsFrom, hcell, hrow, eventOf] using hevents

/-- Settles O24: FAULT holds over the list, and the cell (FAULT, `00`) is START without a marker. -/
theorem faultHoldsUntilIdleSample : Obligations.FaultHoldsUntilIdleSample := by
  intro s k x ss hx hfault hss
  obtain ⟨hrow, hevents⟩ := fault_holds hss
  obtain ⟨hstate, _⟩ := advances_run hx ss
  obtain ⟨hstate', hout'⟩ := advances_run hx (ss ++ [0b00#2])
  rw [hfault, hrow] at hstate
  rw [hfault, rowAfter_append, hrow] at hstate'
  rw [hfault, eventsFrom_append, hrow] at hout'
  refine ⟨hstate, hstate', fun o ho => ?_⟩
  rw [hout'] at ho
  obtain ⟨e, he, rfl⟩ := List.mem_map.mp ho
  have hnone : e = .none := by
    obtain he | he := List.mem_append.mp he
    · exact hevents e he
    · exact List.mem_singleton.mp he
  rw [hnone]
  rfl

/-! Reversals -/

/-- Settles O25: the cells (CW2, `10`) and (ACW2, `01`), and half a detent and back through the table. -/
theorem reversalKeepsDirection : Obligations.ReversalKeepsDirection := by
  intro s k x hx
  refine ⟨fun h => ?_, fun h => ?_, fun h => ?_⟩
  · rw [(advances_run hx _).1, h]
    rfl
  · rw [(advances_run hx _).1, h]
    rfl
  · obtain ⟨hstate, hout⟩ := advances_run hx [0b00#2, 0b10#2, 0b11#2, 0b10#2, 0b00#2]
    rw [hstate, hout, h]
    decide

/-! The quadrature cycle -/

/-- The samples of a cycle up to the position a row stands for (R82): none for START and for FAULT. -/
def cycleUpTo : Row → List Sample
  | .start => []
  | .cw1   => [0b10#2]
  | .cw2   => [0b10#2, 0b11#2]
  | .cw3   => [0b10#2, 0b11#2, 0b01#2]
  | .acw1  => [0b01#2]
  | .acw2  => [0b01#2, 0b11#2]
  | .acw3  => [0b01#2, 0b11#2, 0b10#2]
  | .fault => []

/-- These samples lead from START to the row. -/
theorem rowAfter_cycleUpTo {r : Row} (h : r ≠ .fault) : rowAfter .start (cycleUpTo r) = r := by
  cases r with
  | fault => exact absurd rfl h
  | start | cw1 | cw2 | cw3 | acw1 | acw2 | acw3 => rfl

/-- One sample adds at most itself to the part of the cycle that was made. -/
theorem cycleUpTo_transition (r : Row) (p : Sample) :
    (cycleUpTo (rowOf (transition r p))).Sublist (cycleUpTo r ++ [p]) := by
  obtain rfl | rfl | rfl | rfl := sample_cases p <;> cases r <;> decide

/-- A row is reached only by samples that hold the positions of its cycle in order. -/
theorem cycleUpTo_rowAfter (r : Row) (ss : List Sample) : (cycleUpTo (rowAfter r ss)).Sublist (cycleUpTo r ++ ss) := by
  induction ss generalizing r with
  | nil => simp [rowAfter]
  | cons p ps ih =>
    have hstep := (cycleUpTo_transition r p).append_right ps
    rw [List.append_assoc] at hstep
    exact (ih _).trans hstep

/-- A list of samples from START splits where STATE was last START. -/
theorem exists_last_start (ss : List Sample) :
    ∃ before since, ss = before ++ since ∧ rowAfter .start before = .start ∧
      ∀ q, q ≠ [] → q <+: since → rowAfter .start (before ++ q) ≠ .start := by
  induction ss using List.reverseRecOn with
  | nil => exact ⟨[], [], rfl, rfl, fun q hq hpre => absurd (List.prefix_nil.mp hpre) hq⟩
  | append_singleton ss p ih =>
    by_cases hback : rowAfter .start (ss ++ [p]) = .start
    · exact ⟨ss ++ [p], [], by simp, hback, fun q hq hpre => absurd (List.prefix_nil.mp hpre) hq⟩
    · obtain ⟨before, since, rfl, hbefore, hsince⟩ := ih
      refine ⟨before, since ++ [p], by simp, hbefore, fun q hq hpre => ?_⟩
      obtain rfl | hpre := List.prefix_concat_iff.mp hpre
      · rwa [← List.append_assoc]
      · exact hsince q hq hpre

/-- What the last sample of a list drives. -/
theorem getLast?_ownOutputs {s : State} {k : Nat} {x : Encoder} (hx : s.encoders[k]? = some x) (ss : List Sample)
    (p : Sample) :
    (ownOutputs k (advances k (ss ++ [p])) s).getLast? =
      some (Outputs.ofEvent (eventOf (transition (rowAfter x.state ss) p))) := by
  rw [(advances_run hx _).2, eventsFrom_append]
  simp [eventsFrom]

/-- Settles O26: an event comes from CW3 or ACW3 on `00`; the samples since the last START lead to that row, so they hold its cycle. -/
theorem eventNeedsFullCycle : Obligations.EventNeedsFullCycle := by
  intro s k x ss p o hx hstart hlast hevent
  rw [getLast?_ownOutputs hx, hstart] at hlast
  obtain rfl := Option.some.inj hlast
  obtain ⟨before, since, rfl, hbefore, hsince⟩ := exists_last_start ss
  simp only [rowAfter_append, hbefore, transition_out_cw_iff, transition_out_acw_iff] at hevent ⊢
  have hcycle := cycleUpTo_rowAfter .start since
  refine ⟨hevent.elim And.right And.right, before, since, rfl, ?_, fun q hq hpre => ?_, fun ⟨hcw3, _⟩ => ?_,
    fun ⟨hacw3, _⟩ => ?_⟩
  · rw [(advances_run hx _).1, hstart, hbefore]
  · rw [(advances_run hx _).1, hstart]
    simpa using hsince q hq hpre
  · rwa [hcw3] at hcycle
  · rwa [hacw3] at hcycle

/-! The Mealy machine -/

/-- Each cell of the table leads where the Mealy machine goes. -/
theorem rowOf_transition_eq_mealyNext (r : Row) (p : Sample) : rowOf (transition r p) = mealyNext r p := by
  obtain rfl | rfl | rfl | rfl := sample_cases p <;> cases r <;> rfl

/-- Each cell of the table has the event of the Mealy machine's transition. -/
theorem eventOf_transition_eq_mealyEvent (r : Row) (p : Sample) : eventOf (transition r p) = mealyEvent r p := by
  obtain rfl | rfl | rfl | rfl := sample_cases p <;> cases r <;> rfl

theorem rowAfter_eq_mealyRun (r : Row) (ss : List Sample) : rowAfter r ss = mealyRun r ss := by
  induction ss generalizing r with
  | nil => rfl
  | cons p ps ih => rw [rowAfter, mealyRun, rowOf_transition_eq_mealyNext, ih]

theorem eventsFrom_eq_mealyEvents (r : Row) (ss : List Sample) : eventsFrom r ss = mealyEvents r ss := by
  induction ss generalizing r with
  | nil => rfl
  | cons p ps ih =>
    rw [eventsFrom, mealyEvents, eventOf_transition_eq_mealyEvent, rowOf_transition_eq_mealyNext, ih]

/-- Settles O27: both machines fold the same cells over the list. -/
theorem mealyMachineIsEquivalent : Obligations.MealyMachineIsEquivalent := by
  intro s k x ss hx
  obtain ⟨hstate, hout⟩ := advances_run hx ss
  rw [rowAfter_eq_mealyRun] at hstate
  rw [eventsFrom_eq_mealyEvents] at hout
  exact ⟨hstate, hout⟩

/-! Reachability -/

/-- No single sample leads from START to FAULT, so FAULT is two samples away at least. -/
theorem two_le_length_of_rowAfter_fault {ss : List Sample} (h : rowAfter .start ss = .fault) : 2 ≤ ss.length := by
  match ss with
  | [] => exact absurd h (by decide)
  | [p] =>
    have hfault := (rowOf_eq_fault_iff _).mp h
    obtain hcell | hcell | hcell := transition_start_cases p <;> rw [hcell] at hfault <;> cases hfault
  | _ :: _ :: _ => simp

/-- Settles O28: every row but FAULT at the end of its part of the cycle, FAULT by `10, 01`. -/
theorem everyRowIsReachable : Obligations.EveryRowIsReachable := by
  intro s k x hx hstart
  have hrun : ∀ ss, stateAfter k (advances k ss) s = some (rowAfter .start ss) := fun ss => by
    rw [(advances_run hx ss).1, hstart]
  have hfault : stateAfter k (advances k [0b10#2, 0b01#2]) s = some .fault := hrun _
  refine ⟨fun r => ?_, hfault, fun ss hss => ?_⟩
  · by_cases hr : r = .fault
    · exact ⟨_, hr ▸ hfault⟩
    · exact ⟨cycleUpTo r, by rw [hrun, rowAfter_cycleUpTo hr]⟩
  · rw [hrun] at hss
    exact two_le_length_of_rowAfter_fault (Option.some.inj hss)

end Sys2Proof.Machine
end

section
/-! PROOF. ClickDebouncer (R100 to R108): the addressed encoder ends as `x.click w now`, which an accepted CLICK makes from LAST_TS
and `out.click` alone and a rejected one leaves as a step without a command does. Each statement is then a fact about the acceptance
test. -/

namespace Sys2Proof.Machine

/-! One CLICK -/

/-- The words `10xx` are CLICK, whatever `xx` is (R61, R64). -/
theorem decode_clickWords (w now : Nat) (a : Sample) : decode w (0b10#2 ++ a) now = .ok (.click (portNow w now)) := by
  have hop : (0b10#2 ++ a).extractLsb' 2 2 = 0b10#2 := by revert a; decide
  simp [decode, hop]

/-- CLICK completes on every encoder of the device; the frame and the encoder after it. -/
theorem exec_click_completes {s : State} {x : Encoder} (h : s.encoders[s.sel]? = some x) (now : Nat) :
    ∃ t, exec (.click now) s = .next t ∧ s.FrameOutside s.sel t ∧ t.encoders[s.sel]? = some (x.click s.w now) :=
  exec_completes h

theorem Encoder.click_out_click (w now : Nat) (x : Encoder) : (x.click w now).out.click = x.accepts w now := rfl

/-- Acceptance (R102); STATE is not written (R100). -/
theorem Encoder.click_of_accepts {w now : Nat} {x : Encoder} (h : x.accepts w now = true) :
    x.click w now = { x with lastTs := now, out := Outputs.ofClick true } := by
  simp [Encoder.click, h]

/-- A rejected CLICK is as good as no command (R103). -/
theorem Encoder.click_of_rejects {w now : Nat} {x : Encoder} (h : x.accepts w now = false) : x.click w now = x.idle := by
  simp [Encoder.click, Encoder.idle, h, Outputs.ofClick, Outputs.allLow]

/-- The rejection in integers (R101). -/
theorem Encoder.rejects_iff_emod (w now : Nat) (x : Encoder) :
    x.accepts w now = false ↔ ((now : Int) - x.lastTs) % 2 ^ w < x.cfg.window := by
  rw [← Bool.not_eq_true, Encoder.accepts_iff_emod, not_le]

/-- A CLICK `e` units after LAST_TS is accepted if and only if `e mod 2^W` is at least WINDOW. -/
theorem Encoder.accepts_after_iff (w e : Nat) (x : Encoder) :
    x.accepts w ((x.lastTs + e) % 2 ^ w) = true ↔ x.cfg.window ≤ e % 2 ^ w := by
  rw [Encoder.accepts_iff, subW_add]

/-- Settles O17: the two clauses are the two answers of the acceptance test. -/
theorem clickAcceptsAfterWindow : Obligations.ClickAcceptsAfterWindow := by
  intro s x now hx
  obtain ⟨t, ht, hframe, hy⟩ := exec_click_completes hx now
  refine ⟨fun hnow a => ?_, fun haccept => ⟨t, ht, hframe, ?_⟩, fun hreject => ⟨t, ht, hframe, ?_⟩⟩
  · rw [decode_clickWords, portNow_of_fits hnow]
  · rw [hy, Encoder.click_of_accepts ((Encoder.accepts_iff_emod ..).mpr haccept)]
    rfl
  · rw [hy, Encoder.click_of_rejects ((Encoder.rejects_iff_emod ..).mpr hreject)]
    rfl

/-- Settles O31: an elapsed time below `2^W` is its own residue. -/
theorem rolloverDoesNotFoolTheTest : Obligations.RolloverDoesNotFoolTheTest := by
  intro s x elapsed hx helapsed
  have hmod : elapsed % 2 ^ s.w = elapsed := Nat.mod_eq_of_lt helapsed
  obtain ⟨t, ht, _, hy⟩ := exec_click_completes hx ((x.lastTs + elapsed) % 2 ^ s.w)
  refine ⟨?_, t, _, ht, hy, ?_⟩
  · rw [← subW_eq_emod, subW_add, hmod]
  · rw [Encoder.click_out_click, Encoder.accepts_after_iff, hmod]

/-- Settles O32: whole periods vanish from the residue, and what is left is below WINDOW. -/
theorem wholePeriodsAreAliased : Obligations.WholePeriodsAreAliased := by
  intro s x k e hx hwindow _ he
  have hmod : (k * 2 ^ s.w + e) % 2 ^ s.w = e := by
    rw [Nat.mul_add_mod_self_right, Nat.mod_eq_of_lt (he.trans hwindow)]
  have hreject : x.accepts s.w ((x.lastTs + (k * 2 ^ s.w + e)) % 2 ^ s.w) = false := by
    rw [← Bool.not_eq_true, Encoder.accepts_after_iff, hmod]
    exact not_le.mpr he
  obtain ⟨t, ht, _, hy⟩ := exec_click_completes hx ((x.lastTs + (k * 2 ^ s.w + e)) % 2 ^ s.w)
  rw [Encoder.click_of_rejects hreject] at hy
  exact ⟨t, ht, hy⟩

/-- Settles O33: no difference is below 0, and the difference of LAST_TS and itself is 0. -/
theorem zeroWindowAndSameTimestamp : Obligations.ZeroWindowAndSameTimestamp := by
  intro s x now hx
  constructor
  · intro hwindow
    have haccept : x.accepts s.w now = true := by
      rw [Encoder.accepts_iff, hwindow]
      exact Nat.zero_le _
    obtain ⟨t, ht, _, hy⟩ := exec_click_completes hx now
    rw [Encoder.click_of_accepts haccept] at hy
    exact ⟨t, _, ht, hy, rfl, rfl⟩
  · obtain ⟨t, ht, _, hy⟩ := exec_click_completes hx x.lastTs
    refine ⟨t, _, ht, hy, ?_⟩
    rw [Encoder.click_out_click, Encoder.accepts_iff, subW_self, Nat.le_zero]

/-! A stream without an accepted click -/

/-- LAST_TS is written only by a command that drives `out.click` (R102, R103). -/
theorem Encoder.apply_lastTs_of_click_low {w : Nat} {i : Instr} {x : Encoder} (h : (x.apply w i).out.click = false) :
    (x.apply w i).lastTs = x.lastTs := by
  cases i with
  | nop => rfl
  | advance p => rfl
  | click now =>
    have hreject : x.accepts w now = false := h
    rw [Encoder.apply, Encoder.click_of_rejects hreject, Encoder.idle_lastTs]

/-- LAST_TS and the configuration of encoder `k` stay over a stream in which it accepts no click, and so does the timestamp
width. -/
theorem lastTs_kept_without_accepted_click {k : Nat} {cs : List (Nat × Instr)} {s t : State} {x : Encoder}
    (hx : s.encoders[k]? = some x) (ht : runCommands cs s = .next t)
    (hlow : ∀ o ∈ ownOutputs k cs s, o.click = false) :
    t.w = s.w ∧ ∃ y, t.encoders[k]? = some y ∧ y.lastTs = x.lastTs ∧ y.cfg = x.cfg := by
  induction cs generalizing s x with
  | nil =>
    cases ht
    exact ⟨rfl, x, hx, rfl, rfl⟩
  | cons c cs ih =>
    obtain ⟨j, i⟩ := c
    obtain ⟨hj, ht⟩ := runCommands_cons.mp ht
    rw [ownOutputs_cons hj] at hlow
    have htail : ∀ o ∈ ownOutputs k cs (s.after j i), o.click = false :=
      fun o ho => hlow o (List.mem_append_right _ ho)
    by_cases hjk : j = k
    · subst hjk
      have hx' : (s.after j i).encoders[j]? = some (x.apply s.w i) := by simp [hx]
      have hfirst : (x.apply s.w i).out.click = false := hlow _ (List.mem_append_left _ (by simp [hx]))
      obtain ⟨hw, y, hy, hlast, hcfg⟩ := ih hx' ht htail
      exact ⟨hw, y, hy, hlast.trans (Encoder.apply_lastTs_of_click_low hfirst), hcfg.trans (Encoder.apply_cfg ..)⟩
    · have hx' : (s.after j i).encoders[k]? = some x.idle := by simp [hx, Ne.symm hjk]
      exact ih (s := s.after j i) (x := x.idle) hx' ht htail

/-- Settles O34: the accepted click leaves `a` in LAST_TS, the stream keeps it there, and the next click is tested against it. -/
theorem rejectedClicksDoNotExtendWindow : Obligations.RejectedClicksDoNotExtendWindow := by
  intro s s' t u k a now x y z cs hclick hx haccepted hrun hlow hy hnext hz
  obtain ⟨x₀, _, hframe, hx₀⟩ := exec_next_encoder hclick
  obtain rfl : x₀.click s.w a = x := Option.some.inj (hx₀.symm.trans hx)
  have hlast : (x₀.click s.w a).lastTs = a := by rw [Encoder.click_of_accepts haccepted]
  obtain ⟨hw, y', hy', hlast', hcfg⟩ := lastTs_kept_without_accepted_click hx hrun hlow
  obtain rfl : y' = y := Option.some.inj (hy'.symm.trans hy)
  have hya : y'.lastTs = a := hlast'.trans hlast
  obtain ⟨y₀, hy₀, _, hz₀⟩ := exec_next_encoder hnext
  obtain rfl : y₀ = y' := Option.some.inj (hy₀.symm.trans hy)
  obtain rfl : y₀.click t.w now = z := Option.some.inj (hz₀.symm.trans hz)
  have hwidth : t.w = s.w := hw.trans hframe.w
  refine ⟨hya, ?_⟩
  rw [Encoder.click_out_click, Encoder.accepts_iff_emod, hya, hcfg, hwidth]

end Sys2Proof.Machine
end

section
/-! PROOF. Idle steps and reserved words (R115, R116): NOP is the idle step of the addressed encoder, the empty list of stimuli is
the idle step of all of them, and a reserved word stops the machine. -/

namespace Sys2Proof.Machine

/-! Nothing reaches the device -/

/-- A step in which nothing reaches the device emits no record (R141). -/
theorem State.idle_report_emission (r : Returned) (s : State) : (s.idle.report r).emission = none :=
  emission_of_allLow Encoder.idle_out

/-- Settles O11: the step is `quietStep`, which makes every encoder idle and reports that nothing came back. -/
theorem emptyInputsIsAnIdleStep : Obligations.EmptyInputsIsAnIdleStep := by
  intro s hin
  refine ⟨s.idle.report .nothing, step_nil hin, ?_, fun j x hx => ?_, ?_, hin, rfl, rfl, s.idle_report_emission _⟩
  · simp
  · rw [State.report_encoders, State.idle_encoders, List.getElem?_map, hx]
    rfl
  · rw [State.config_report, State.config_idle]

/-! NOP -/

/-- The words `00xx` are NOP, whatever `xx` is (R61, R64). -/
theorem decode_nopWords (w now : Nat) (a : Sample) : decode w (0b00#2 ++ a) now = .ok .nop := by
  have hop : (0b00#2 ++ a).extractLsb' 2 2 = 0b00#2 := BitVec.extractLsb'_append_eq_left
  simp [decode, hop]

/-- NOP completes on every encoder of the device; the frame and the encoder after it. -/
theorem exec_nop_completes {s : State} {x : Encoder} (h : s.encoders[s.sel]? = some x) :
    ∃ t, exec .nop s = .next t ∧ s.FrameOutside s.sel t ∧ t.encoders[s.sel]? = some x.idle :=
  exec_completes h

/-- Settles O15: the encoder after a NOP is the idle one. -/
theorem nopChangesNothing : Obligations.NopChangesNothing :=
  fun s _ hx => ⟨fun a now => decode_nopWords s.w now a, exec_nop_completes hx⟩

/-! Reserved words -/

/-- A word with op field `11` has no meaning (R65). -/
theorem decode_reservedWords {cmd : CmdWord} (h : cmd.extractLsb' 2 2 = 0b11#2) (w now : Nat) :
    decode w cmd now = .error .reservedOp := by
  simp [decode, h]

/-- A reserved word on the ports of any encoder, present or absent, is refused (R116). -/
theorem runDrive_of_reserved {k : Nat} {p : Ports} {s : State} (hr : p.rst = false)
    (hop : p.cmd.extractLsb' 2 2 = 0b11#2) : runDrive k p s = .refused .reservedCommand := by
  rw [runDrive, issue_of_reserved hr (decode_reservedWords hop _ _)]
  rfl

/-- A run stops at the first step that refuses. -/
theorem run_succ_of_step_refused {s : State} {r : Refusal} (h : step s = .refused r) (n : Nat) :
    Host.Core.run core (n + 1) s = .refused r := by
  have hstep : core.step s = .refused r := h
  simp only [Host.Core.run, hstep]

/-- Settles O8: the decoder rejects the word before the encoder it is addressed to matters, and the run ends there. -/
theorem reservedWordRefused : Obligations.ReservedWordRefused := by
  intro s k p rest hin hr hop
  have hstep : step s = .refused .reservedCommand := by
    rw [step_cons hin]
    exact runDrive_of_reserved hr hop
  exact ⟨hstep, run_succ_of_step_refused hstep⟩

end Sys2Proof.Machine
end

section
/-! PROOF. The command words (R61 to R65): each op field has its command, so decoding and encoding are inverse up to the bits a
command ignores. -/

namespace Sys2Proof

open Sys2Proof.Machine

/-- What a word that decodes to a command has in its op field, and which command it is. -/
theorem decode_ok {w now : Nat} {cmd : CmdWord} {i : Instr} (h : decode w cmd now = .ok i) :
    (cmd.extractLsb' 2 2 = 0b00#2 ∧ i = .nop) ∨
    (cmd.extractLsb' 2 2 = 0b01#2 ∧ i = .advance (operandField cmd)) ∨
    (cmd.extractLsb' 2 2 = 0b10#2 ∧ i = .click (portNow w now)) := by
  obtain ⟨hop, hd⟩ | ⟨hop, hd⟩ | ⟨hop, hd⟩ | ⟨hop, hd⟩ := decode_cases w cmd now <;> rw [hd] at h <;> cases h
  · exact .inl ⟨hop, rfl⟩
  · exact .inr (.inl ⟨hop, rfl⟩)
  · exact .inr (.inr ⟨hop, rfl⟩)

/-- Only the op field `11` decodes to no command (R65). -/
theorem exists_decode {cmd : CmdWord} (h : cmd.extractLsb' 2 2 ≠ 0b11#2) (w now : Nat) :
    ∃ i, decode w cmd now = .ok i := by
  obtain ⟨_, hd⟩ | ⟨_, hd⟩ | ⟨_, hd⟩ | ⟨hop, _⟩ := decode_cases w cmd now
  · exact ⟨_, hd⟩
  · exact ⟨_, hd⟩
  · exact ⟨_, hd⟩
  · exact absurd hop h

/-- An ADVANCE word is its op field and its sample. -/
theorem advanceWord_operandField {cmd : CmdWord} (h : cmd.extractLsb' 2 2 = 0b01#2) :
    advanceWord (operandField cmd) = cmd := by
  revert cmd; decide

/-- Settles O5, command by command: the words of R71 have the op fields of R61, and a well-formed operand is what its port
carries. -/
theorem decodeOfEncode : Obligations.DecodeOfEncode := by
  intro w i hwf
  cases i with
  | nop => exact decode_nopWords w 0 0b00#2
  | advance s => exact decode_advanceWord w 0 s
  | click now =>
    have hnow : now < 2 ^ w := by simpa [Instr.wellFormed, fitsW] using hwf
    simp only [encode, decode_clickWord, portNow_of_fits hnow]

/-- Settles O6, by the three answers of the decoder. -/
theorem encodeOfDecode : Obligations.EncodeOfDecode := by
  intro w cmd now i hd
  obtain ⟨hop, rfl⟩ | ⟨hop, rfl⟩ | ⟨hop, rfl⟩ := decode_ok hd <;> rw [hop]
  · exact ⟨rfl, rfl, by simp, by simp⟩
  · exact ⟨rfl, op_advanceWord _, fun _ => advanceWord_operandField hop, by simp⟩
  · exact ⟨by simp [Instr.wellFormed, fitsW, portNow_lt], by simp [encode], by simp, fun _ => rfl⟩

/-- Settles O7: NOP and CLICK by their op fields, ADVANCE by its word. -/
theorem ignoredBitsDoNotMatter : Obligations.IgnoredBitsDoNotMatter := by
  intro w a now now'
  exact ⟨decode_nopWords w now a, decode_clickWords w now a,
    (decode_advanceWord w now a).trans (decode_advanceWord w now' a).symm⟩

/-- Settles O4: the first and the last word of each op field, and all four of ADVANCE. -/
theorem tableWordsDecode : Obligations.TableWordsDecode :=
  ⟨decode_nopWords 32 9 0b00#2, decode_nopWords 32 9 0b11#2,
    decode_advanceWord 32 9 0b00#2, decode_advanceWord 32 9 0b01#2,
    decode_advanceWord 32 9 0b10#2, decode_advanceWord 32 9 0b11#2,
    decode_clickWords 32 1100 0b00#2, decode_clickWords 32 1100 0b11#2,
    decode_reservedWords (by decide) 32 9, decode_reservedWords (by decide) 32 9⟩

end Sys2Proof
end

section
/-! PROOF. One step (R10, R23, R116, R120, R150): what the ports bring to an encoder, where a step stops, and what every step
leaves of the list of stimuli and of the configuration. -/

namespace Sys2Proof.Machine

/-! The ports -/

/-- Settles O9: with `rst = 0` the ports of encoder `k` bring the command that their word decodes to. -/
theorem stepRunsDecodedCommand : Obligations.StepRunsDecodedCommand := by
  intro s k p rest i hin hr hd
  rw [step_cons hin, runStimulus, runDrive, issue_of_decode hr (by exact hd)]

/-- Settles O10: the placed word stands on the ports of encoder 0, in front of what waits. -/
theorem stepRunsFetchedWord : Obligations.StepRunsFetchedWord := by
  intro s n v i _ hd
  exact stepRunsDecodedCommand (s.withFetchWord n v) 0 _ s.inputs i rfl rfl hd

/-- Settles O14: every command is `perform`, which refuses an absent encoder. -/
theorem absentEncoderRefused : Obligations.AbsentEncoderRefused := by
  intro i s hle
  rw [exec_eq_perform, State.perform_of_not_lt (not_lt.mpr hle)]

/-- A step with `rst = 1` restarts the device, whatever else is on the ports (R150). -/
theorem step_of_rst {s : State} {k : Nat} {p : Ports} {rest : List Stimulus} (hin : s.inputs = .drive k p :: rest)
    (hr : p.rst = true) : step s = .next (({ s with inputs := rest } : State).restart.report .nothing) := by
  rw [step_cons hin, runStimulus, runDrive, issue_of_rst hr]
  rfl

/-- Encoder `j` after a restart of the device. -/
theorem State.restart_getElem? (s : State) (j : Nat) :
    s.restart.encoders[j]? = s.encoders[j]?.map (Encoder.restart s.tReset) := by
  simp

/-- Settles O2: the step is the restart of every encoder and reports nothing. -/
theorem resetStepOverridesCommand : Obligations.ResetStepOverridesCommand := by
  intro s k p rest hin hr
  refine ⟨_, step_of_rst hin hr, by simp, fun j x hx => ?_, ?_, rfl, rfl, emission_of_allLow (Encoder.restart_out s.tReset)⟩
  · rw [State.report_encoders, State.restart_getElem?, hx]
    rfl
  · rw [State.config_report, State.config_restart, State.config_inputs]

/-! Where a step stops -/

/-- What the ports refuse: a reserved word, and a command to an absent encoder. -/
theorem issue_refused {k : Nat} {p : Ports} {s : State} {r : Refusal} (h : issue k p s = .refused r) :
    p.rst = false ∧
      ((r = .reservedCommand ∧ p.cmd.extractLsb' 2 2 = 0b11#2) ∨
       (r = .noSuchEncoder ∧ s.encoders.length ≤ k ∧ p.cmd.extractLsb' 2 2 ≠ 0b11#2)) := by
  cases hr : p.rst with
  | true =>
    rw [issue_of_rst hr] at h
    cases h
  | false =>
    refine ⟨rfl, ?_⟩
    by_cases hop : p.cmd.extractLsb' 2 2 = 0b11#2
    · rw [issue_of_reserved hr (decode_reservedWords hop _ _)] at h
      cases h
      exact .inl ⟨rfl, hop⟩
    · obtain ⟨i, hd⟩ := exists_decode hop s.w p.now
      rw [issue_of_decode hr hd] at h
      obtain ⟨hle, rfl⟩ := exec_refused h
      exact .inr ⟨rfl, hle, hop⟩

/-- A command to an encoder of the device is never refused. -/
theorem mapNext_exec_ne_refused {f : State → State} {i : Instr} {s : State} {k : Nat} (hk : k < s.encoders.length)
    (r : Refusal) : mapNext f (exec i { s with sel := k }) ≠ .refused r :=
  fun h => absurd hk (not_lt.mpr (exec_refused (mapNext_refused h)).1)

/-- No rotation trigger is refused: its command goes to an encoder of the device, or there is none. -/
theorem dispatchRotation_ne_refused (pin : Nat) (clk dt : Bool) (s : State) (r : Refusal) :
    dispatchRotation pin clk dt s ≠ .refused r := by
  cases ho : s.rotationOwner pin with
  | none =>
    rw [dispatchRotation_unclaimed ho]
    exact nofun
  | some k =>
    rw [dispatchRotation_of_owner ho]
    exact mapNext_exec_ne_refused (State.rotationOwner_lt ho) r

/-- No click trigger is refused, for the same reason. -/
theorem dispatchClick_ne_refused (pin now : Nat) (s : State) (r : Refusal) : dispatchClick pin now s ≠ .refused r := by
  cases ho : s.clickOwner pin with
  | none =>
    rw [dispatchClick_unclaimed ho]
    exact nofun
  | some k =>
    rw [dispatchClick_of_owner ho]
    exact mapNext_exec_ne_refused (State.clickOwner_lt ho) r

/-- Settles O13: the device has no fault, and of the stimuli only the ports of an encoder can be refused. -/
theorem stepStopsOnlyByName : Obligations.StepStopsOnlyByName := by
  intro s
  refine ⟨nofun, fun r h => ?_⟩
  cases hin : s.inputs with
  | nil =>
    rw [step_nil hin] at h
    cases h
  | cons x rest =>
    rw [step_cons hin] at h
    cases x with
    | drive k p =>
      obtain ⟨hr, hstop⟩ := issue_refused (mapNext_refused h)
      exact ⟨k, p, rest, rfl, hr, hstop⟩
    | rotation pin clk dt => exact absurd h (dispatchRotation_ne_refused pin clk dt _ r)
    | click pin now => exact absurd h (dispatchClick_ne_refused pin now _ r)

/-! What every step leaves alone -/

/-- Settles O12: in each of the cases of `step_next` the list that is left is the tail. -/
theorem stepTakesOneStimulus : Obligations.StepTakesOneStimulus := by
  intro s t h
  obtain ⟨u, r, rfl, rfl | ⟨rfl, _⟩ | ⟨k, i, _, _, rfl⟩⟩ := step_next h
  · rfl
  · rfl
  · rfl

/-- Settles O38: idling, restarting and every command keep each encoder's configuration. -/
theorem stepKeepsConfiguration : Obligations.StepKeepsConfiguration := by
  intro s t h
  obtain ⟨u, r, rfl, rfl | ⟨rfl, _⟩ | ⟨k, i, _, _, rfl⟩⟩ := step_next h <;> rw [State.config_report]
  · exact State.config_idle _
  · exact State.config_restart _
  · exact State.performed_config (Encoder.apply_cfg s.w i) _

end Sys2Proof.Machine
end

section
/-! PROOF. A step seen from one encoder (R20, R24, R27, R31): it idles, restarts or makes one command, and only the addressed
encoder makes a command. That at most one output is 1, and that every step keeps the invariant, follow. -/

namespace Sys2Proof.Machine

/-! One encoder -/

/-- Encoder `j` after a step: idle, restarted, or, where it is the addressed one, after a command. -/
theorem step_encoder {s t : State} {j : Nat} {y : Encoder} (h : step s = .next t) (hy : t.encoders[j]? = some y) :
    ∃ x, s.encoders[j]? = some x ∧
      (y = x.idle ∨ y = x.restart s.tReset ∨ (j = t.sel ∧ ∃ i, i.wellFormed s.w = true ∧ y = x.apply s.w i)) := by
  obtain ⟨u, r, rfl, rfl | ⟨rfl, _⟩ | ⟨k, i, _, hwf, rfl⟩⟩ := step_next h
  · obtain ⟨x, hx, rfl⟩ : ∃ x, s.encoders[j]? = some x ∧ x.idle = y := by simpa using hy
    exact ⟨x, hx, .inl rfl⟩
  · obtain ⟨x, hx, rfl⟩ : ∃ x, s.encoders[j]? = some x ∧ x.restart s.tReset = y := by simpa using hy
    exact ⟨x, hx, .inr (.inl rfl)⟩
  · rw [State.report_encoders, State.performed_getElem?, Option.map_eq_some_iff] at hy
    obtain ⟨x, hx, rfl⟩ := hy
    refine ⟨x, hx, ?_⟩
    by_cases hj : j = k
    · exact .inr (.inr ⟨hj, i, hwf, if_pos hj⟩)
    · exact .inl (if_neg hj)

/-! Outputs -/

theorem Outputs.allLow_atMostOne : Outputs.allLow.AtMostOne := by decide

theorem Outputs.ofEvent_atMostOne (ev : RotationEvent) : (Outputs.ofEvent ev).AtMostOne := by
  cases ev <;> decide

theorem Outputs.ofClick_atMostOne (accepted : Bool) : (Outputs.ofClick accepted).AtMostOne := by
  cases accepted <;> decide

/-- No command drives two outputs (R27). -/
theorem Encoder.apply_out_atMostOne (w : Nat) (i : Instr) (x : Encoder) : (x.apply w i).out.AtMostOne := by
  cases i with
  | nop => exact Outputs.allLow_atMostOne
  | advance p => exact Outputs.ofEvent_atMostOne _
  | click now => exact Outputs.ofClick_atMostOne _

theorem step_out_atMostOne {s t : State} {j : Nat} {y : Encoder} (h : step s = .next t) (hy : t.encoders[j]? = some y) :
    y.out.AtMostOne := by
  obtain ⟨x, _, rfl | rfl | ⟨_, i, _, rfl⟩⟩ := step_encoder h hy
  · exact Outputs.allLow_atMostOne
  · exact Outputs.allLow_atMostOne
  · exact Encoder.apply_out_atMostOne s.w i x

/-- Only the addressed encoder drives an output (R15, log 9). -/
theorem eq_sel_of_drives {s t : State} {j : Nat} {y : Encoder} (h : step s = .next t) (hy : t.encoders[j]? = some y)
    (hout : y.out ≠ Outputs.allLow) : j = t.sel := by
  obtain ⟨x, _, rfl | rfl | ⟨hj, _⟩⟩ := step_encoder h hy
  · exact absurd x.idle_out hout
  · exact absurd (x.restart_out _) hout
  · exact hj

/-- Settles O39: two encoders that drive an output are both the addressed one. -/
theorem atMostOneOutputPerStep : Obligations.AtMostOneOutputPerStep := by
  intro s t h
  refine ⟨fun j x hx => step_out_atMostOne h hx, fun i j x y hx hy hxo hyo => ?_⟩
  exact (eq_sel_of_drives h hx hxo).trans (eq_sel_of_drives h hy hyo).symm

/-! The invariant -/

/-- T_RESET of a configuration within R8 is a W-bit value. -/
theorem DeviceConfig.tReset_lt {c : DeviceConfig} (h : c.wellFormed = true) : c.tReset < 2 ^ c.w := by
  simp only [DeviceConfig.wellFormed, DeviceConfig.widthsOk, fitsW, Bool.and_eq_true, decide_eq_true_eq] at h
  obtain ⟨⟨⟨⟨⟨_, htReset⟩, _⟩, _⟩, _⟩, _⟩ := h
  exact htReset

/-- A command with a W-bit operand leaves a W-bit value in LAST_TS. -/
theorem Encoder.apply_lastTs_lt {w : Nat} {i : Instr} {x : Encoder} (hi : i.wellFormed w = true) (hx : x.lastTs < 2 ^ w) :
    (x.apply w i).lastTs < 2 ^ w := by
  cases i with
  | nop => exact hx
  | advance p => exact hx
  | click now =>
    have hnow : now < 2 ^ w := by simpa [Instr.wellFormed, fitsW] using hi
    rw [Encoder.apply, Encoder.click_lastTs]
    split
    · exact hnow
    · exact hx

theorem step_w {s t : State} (h : step s = .next t) : t.w = s.w :=
  congrArg DeviceConfig.w (stepKeepsConfiguration s t h)

/-- Settles O42: the configuration is kept; LAST_TS is kept, reset to T_RESET, or taken from a decoded operand; and no command
drives two outputs. -/
theorem stepKeepsInvariant : Obligations.StepKeepsInvariant := by
  rintro s t ⟨hwf, hs⟩ h
  refine ⟨(congrArg DeviceConfig.wellFormed (stepKeepsConfiguration s t h)).trans hwf, fun y hmem => ?_⟩
  obtain ⟨j, hy⟩ := List.mem_iff_getElem?.mp hmem
  refine ⟨?_, step_out_atMostOne h hy⟩
  obtain ⟨x, hx, hcases⟩ := step_encoder h hy
  obtain ⟨hlast, _⟩ := hs x (List.mem_of_getElem? hx)
  rw [step_w h]
  obtain rfl | rfl | ⟨_, i, hi, rfl⟩ := hcases
  · exact hlast
  · exact DeviceConfig.tReset_lt hwf
  · exact Encoder.apply_lastTs_lt hi hlast

/-! Reset -/

/-- Settles O1: booting puts every encoder of the configuration in the state after reset. -/
theorem resetLeavesStartAndTReset : Obligations.ResetLeavesStartAndTReset := by
  intro c k e he
  have hx : (State.boot c).encoders[k]? = some (Encoder.afterReset c.tReset e) := by simp [State.boot, he]
  exact ⟨State.config_boot c, _, hx, rfl, rfl, rfl, rfl, rfl⟩

/-- Every device of a configuration within R8 and R140 starts within the invariant. -/
theorem State.boot_inv {c : DeviceConfig} (h : c.wellFormed = true) : (State.boot c).Inv := by
  refine ⟨by rwa [State.config_boot], fun x hx => ?_⟩
  obtain ⟨e, _, rfl⟩ := List.mem_map.mp hx
  exact ⟨DeviceConfig.tReset_lt h, Outputs.allLow_atMostOne⟩

/-- A device whose pins are distinct starts in a legal environment, since nothing is to come yet. -/
theorem State.boot_legalEnvironment {c : DeviceConfig} (h : c.wellFormed = true) (hpins : c.pinsDistinct = true) :
    (State.boot c).LegalEnvironment :=
  ⟨by rwa [State.config_boot], by rwa [State.config_boot], fun _ hx => absurd hx List.not_mem_nil⟩

/-- Settles O41: the configuration `DeviceConfig.standard` is within R8 and R140, and its pins are distinct. -/
theorem resetMeetsInvariant : Obligations.ResetMeetsInvariant :=
  ⟨State.boot_inv (by decide), State.boot_legalEnvironment (by decide) (by decide)⟩

end Sys2Proof.Machine
end

section
/-! PROOF. Legal environments (R120, R142): a stimulus that `Stimulus.runs` allows is not refused, and an environment within its
duties sends no other. -/

namespace Sys2Proof.Machine

theorem step_length {s t : State} (h : step s = .next t) : t.encoders.length = s.encoders.length := by
  have hcfg := congrArg (List.length ∘ DeviceConfig.encoders) (stepKeepsConfiguration s t h)
  simpa [State.config] using hcfg

/-- A stimulus that is refused is none that the device performs. -/
theorem State.RunnableInputs.step_ne_refused {s : State} (hs : s.RunnableInputs) (r : Refusal) : step s ≠ .refused r := by
  intro h
  obtain ⟨_, hstop⟩ := stepStopsOnlyByName s
  obtain ⟨k, p, rest, hin, hr, hcases⟩ := hstop r h
  have hruns : k < s.encoders.length ∧ p.cmd.extractLsb' 2 2 ≠ 0b11#2 := by
    simpa [Stimulus.runs, hr] using hs (.drive k p) (by simp [hin])
  obtain ⟨hk, hop⟩ := hruns
  obtain ⟨_, h11⟩ | ⟨_, hle, _⟩ := hcases
  · exact hop h11
  · exact absurd hk (not_lt.mpr hle)

/-- While all that is to come can be performed, a step completes and leaves only such stimuli. -/
theorem State.RunnableInputs.step_completes {s : State} (hs : s.RunnableInputs) :
    ∃ t, step s = .next t ∧ t.RunnableInputs := by
  cases h : step s with
  | next t =>
    refine ⟨t, rfl, fun x hx => ?_⟩
    rw [stepTakesOneStimulus s t h] at hx
    rw [step_length h]
    exact hs x (List.mem_of_mem_tail hx)
  | fault r => exact nomatch r
  | refused r => exact absurd h (hs.step_ne_refused r)

theorem State.RunnableInputs.run_completes {s : State} (hs : s.RunnableInputs) (n : Nat) :
    ∃ t, Host.Core.run core n s = .next t := by
  induction n generalizing s with
  | zero => exact ⟨s, rfl⟩
  | succ n ih =>
    obtain ⟨u, hu, hruns⟩ := hs.step_completes
    obtain ⟨t, ht⟩ := ih hruns
    have hstep : core.step s = .next u := hu
    exact ⟨t, by simpa only [Host.Core.run, hstep] using ht⟩

/-- A legal move is one that the device performs: it names an encoder of the device, with a word that decodes. -/
theorem Stimulus.runs_of_legal {c : DeviceConfig} {x : Stimulus} (h : x.legal c = true) :
    x.runs c.encoders.length = true := by
  cases x with
  | rotation pin clk dt => rfl
  | click pin now => rfl
  | drive k p =>
    simp only [Stimulus.legal, Bool.or_eq_true] at h
    simp only [Stimulus.runs, Bool.or_eq_true, Bool.and_eq_true, decide_eq_true_eq, bne_iff_ne]
    refine h.imp_right fun h => ?_
    split at h
    · next e i he hd =>
      refine ⟨(List.getElem?_eq_some_iff.mp he).1, fun hop => ?_⟩
      rw [decode_reservedWords hop] at hd
      cases hd
    · cases h

theorem State.LegalEnvironment.runnable {s : State} (hs : s.LegalEnvironment) : s.RunnableInputs := by
  obtain ⟨_, _, hlegal⟩ := hs
  intro x hx
  simpa [State.config] using Stimulus.runs_of_legal (hlegal x hx)

theorem State.LegalEnvironment.of_step {s t : State} (hs : s.LegalEnvironment) (h : step s = .next t) :
    t.LegalEnvironment := by
  obtain ⟨hwf, hpins, hlegal⟩ := hs
  have hcfg := stepKeepsConfiguration s t h
  refine ⟨hcfg ▸ hwf, hcfg ▸ hpins, fun x hx => ?_⟩
  rw [stepTakesOneStimulus s t h] at hx
  exact hcfg ▸ hlegal x (List.mem_of_mem_tail hx)

/-- Settles O43, by the lemmas on a step and a run of stimuli that the device performs and on a step of a legal environment. -/
theorem legalEnvironmentNeverStops : Obligations.LegalEnvironmentNeverStops :=
  fun _ => ⟨fun hs => ⟨hs.step_completes, hs.run_completes⟩, fun hs => ⟨hs.runnable, fun _ h => hs.of_step h⟩⟩

end Sys2Proof.Machine
end

section
/-! PROOF. Where the command of a step comes from (R20, R24, R31): the ports of the encoder it goes to, or a trigger on a pin that
the encoder claims. -/

namespace Sys2Proof.Machine

/-- In the state `s` the stimulus brings the command `i` to encoder `k`. -/
def Stimulus.Brings (s : State) (k : Nat) (i : Instr) : Stimulus → Prop
  | .drive j p => j = k ∧ decode s.w p.cmd p.now = .ok i
  | .rotation pin clk dt => s.rotationOwner pin = some k ∧ i = .advance (sampleOf clk dt)
  | .click pin now => s.clickOwner pin = some k ∧ i = .click (portNow s.w now)

theorem quietStep_encoders {s t : State} (h : quietStep s = .next t) : t.encoders = s.encoders.map Encoder.idle := by
  cases h
  rfl

/-- A stimulus resets the device, brings no command, or brings one. -/
theorem runStimulus_next {x : Stimulus} {s t : State} (h : runStimulus x s = .next t) :
    (∃ k p, x = .drive k p ∧ p.rst = true) ∨ t.encoders = s.encoders.map Encoder.idle ∨
    ∃ k i, x.Brings s k i ∧ t.encoders = (s.after k i).encoders := by
  cases x with
  | drive k p =>
    obtain ⟨u, hu, rfl⟩ := mapNext_next h
    obtain ⟨hr, _⟩ | ⟨_, i, hd, _, rfl⟩ := issue_next hu
    · exact .inl ⟨k, p, rfl, hr⟩
    · exact .inr (.inr ⟨k, i, ⟨rfl, hd⟩, rfl⟩)
  | rotation pin clk dt =>
    rw [runStimulus] at h
    cases ho : s.rotationOwner pin with
    | none => exact .inr (.inl (quietStep_encoders (dispatchRotation_unclaimed ho ▸ h)))
    | some k =>
      rw [dispatchRotation_of_owner ho] at h
      obtain ⟨u, hu, rfl⟩ := mapNext_next h
      obtain ⟨_, rfl⟩ := exec_next hu
      exact .inr (.inr ⟨k, _, ⟨ho, rfl⟩, rfl⟩)
  | click pin now =>
    rw [runStimulus] at h
    cases ho : s.clickOwner pin with
    | none => exact .inr (.inl (quietStep_encoders (dispatchClick_unclaimed ho ▸ h)))
    | some k =>
      rw [dispatchClick_of_owner ho] at h
      obtain ⟨u, hu, rfl⟩ := mapNext_next h
      obtain ⟨_, rfl⟩ := exec_next hu
      exact .inr (.inr ⟨k, _, ⟨ho, rfl⟩, rfl⟩)

/-- Encoder `j` after a step that is no reset: idle, or after the command that the next stimulus brings to it. -/
theorem step_encoder_brings {s t : State} {j : Nat} {x y : Encoder} (h : step s = .next t)
    (hx : s.encoders[j]? = some x) (hy : t.encoders[j]? = some y) :
    (∃ k p, s.inputs.head? = some (.drive k p) ∧ p.rst = true) ∨ y = x.idle ∨
    ∃ a i, s.inputs.head? = some a ∧ a.Brings s j i ∧ y = x.apply s.w i := by
  cases hin : s.inputs with
  | nil =>
    rw [step_nil hin] at h
    rw [quietStep_encoders h, List.getElem?_map, hx] at hy
    exact .inr (.inl (Option.some.inj hy).symm)
  | cons a rest =>
    rw [step_cons hin] at h
    obtain ⟨k, p, rfl, hr⟩ | hidle | ⟨k, i, hbrings, hafter⟩ := runStimulus_next h
    · exact .inl ⟨k, p, rfl, hr⟩
    · rw [hidle, List.getElem?_map, hx] at hy
      exact .inr (.inl (Option.some.inj hy).symm)
    · rw [hafter, State.performed_getElem?, hx, Option.map_some, Option.some.injEq] at hy
      subst hy
      by_cases hj : j = k
      · subst hj
        exact .inr (.inr ⟨a, i, rfl, hbrings, if_pos rfl⟩)
      · exact .inr (.inl (if_neg hj))

/-- An ADVANCE comes as a word `01xx` on the encoder's own ports or from a rotation trigger on a pin it claims. -/
theorem Stimulus.Brings.advance_source {s : State} {k : Nat} {q : Sample} {a : Stimulus}
    (h : a.Brings s k (.advance q)) :
    (∃ p, a = .drive k p ∧ p.cmd.extractLsb' 2 2 = 0b01#2) ∨
    ∃ pin clk dt, a = .rotation pin clk dt ∧ s.rotationOwner pin = some k := by
  cases a with
  | drive j p =>
    obtain ⟨rfl, hd⟩ := h
    obtain ⟨_, hi⟩ | ⟨hop, _⟩ | ⟨_, hi⟩ := decode_ok hd
    · cases hi
    · exact .inl ⟨p, rfl, hop⟩
    · cases hi
  | rotation pin clk dt =>
    obtain ⟨ho, _⟩ := h
    exact .inr ⟨pin, clk, dt, rfl, ho⟩
  | click pin now =>
    obtain ⟨_, hi⟩ := h
    cases hi

/-- Only ADVANCE writes STATE (R20). -/
theorem Encoder.eq_advance_of_apply_state_ne {w : Nat} {i : Instr} {x : Encoder} (h : (x.apply w i).state ≠ x.state) :
    ∃ q, i = .advance q := by
  cases i with
  | nop => exact absurd rfl h
  | advance q => exact ⟨q, rfl⟩
  | click now => exact absurd rfl h

/-- Settles O37: a step that is no reset leaves the encoder idle or after its own command; of the commands only ADVANCE writes
STATE and only an accepted CLICK writes LAST_TS. -/
theorem onlyOwnCommandWritesARegister : Obligations.OnlyOwnCommandWritesARegister := by
  intro s t j x y h hx hy
  obtain hreset | rfl | ⟨a, i, ha, hbrings, rfl⟩ := step_encoder_brings h hx hy
  · exact .inl hreset
  · exact .inr ⟨fun hne => absurd rfl hne, fun hne => absurd rfl hne⟩
  · refine .inr ⟨fun hne => ?_, fun hne => ?_⟩
    · obtain ⟨q, rfl⟩ := Encoder.eq_advance_of_apply_state_ne hne
      obtain ⟨p, rfl, hop⟩ | ⟨pin, clk, dt, rfl, ho⟩ := hbrings.advance_source
      · exact .inl ⟨p, ha, hop⟩
      · exact .inr ⟨pin, clk, dt, ha, ho⟩
    · by_contra hlow
      exact hne (Encoder.apply_lastTs_of_click_low (Bool.not_eq_true _ ▸ hlow))

end Sys2Proof.Machine
end

section
/-! PROOF. No output is stored (R27, R29): the state without what the last step drove, returned and emitted makes the same
step. -/

namespace Sys2Proof.Machine

/-- The state without what the last step returned and emitted. -/
def State.unreported (s : State) : State := { s with returned := .nothing, emission := none }

/-- The state without what the last step drove, returned and emitted. -/
def State.forget (s : State) : State := s.idle.unreported

@[simp] theorem Encoder.idle_of_out (o : Outputs) (x : Encoder) : { x with out := o }.idle = x.idle := rfl

/-- A report writes over what stood there before it. -/
theorem mapNext_unreported {f : State → State} (hf : ∀ t, f t.unreported = f t)
    (o : Host.Outcome State Fault Refusal) : mapNext f (mapNext State.unreported o) = mapNext f o := by
  cases o with
  | next t => exact congrArg Host.Outcome.next (hf t)
  | fault r => rfl
  | refused r => rfl

/-- The addressed encoder's command reads no output. -/
theorem State.performed_forget (i : Instr) (s : State) :
    s.forget.performed (Encoder.apply s.w i) = (s.performed (Encoder.apply s.w i)).unreported := by
  have hencoders : (s.encoders.map Encoder.idle).mapIdx (fun j x => if j = s.sel then x.apply s.w i else x.idle) =
      s.encoders.mapIdx fun j x => if j = s.sel then x.apply s.w i else x.idle := by
    apply List.ext_getElem?
    intro j
    simp [List.getElem?_mapIdx, Function.comp_def, Encoder.apply_idle]
  exact congrArg (fun l => ({ s with encoders := l } : State).unreported) hencoders

theorem exec_forget (i : Instr) (s : State) : exec i s.forget = mapNext State.unreported (exec i s) := by
  by_cases hk : s.sel < s.encoders.length
  · have hk' : s.forget.sel < s.forget.encoders.length := by simpa [State.forget, State.unreported] using hk
    rw [exec_of_lt hk, exec_of_lt hk']
    exact congrArg Host.Outcome.next (State.performed_forget i s)
  · have hk' : ¬s.forget.sel < s.forget.encoders.length := by simpa [State.forget, State.unreported] using hk
    rw [exec_eq_perform, exec_eq_perform, State.perform_of_not_lt hk, State.perform_of_not_lt hk']
    rfl

theorem State.restart_forget (s : State) : s.forget.restart = s.restart.unreported := by
  simp [State.restart, State.forget, State.unreported, State.idle, Function.comp_def, Encoder.restart]

theorem issue_forget (k : Nat) (p : Ports) (s : State) :
    issue k p s.forget = mapNext State.unreported (issue k p s) := by
  cases hr : p.rst with
  | true =>
    rw [issue_of_rst hr, issue_of_rst hr, State.restart_forget]
    rfl
  | false =>
    cases hd : decode s.w p.cmd p.now with
    | error e =>
      cases e
      rw [issue_of_reserved hr hd, issue_of_reserved hr (s := s.forget) hd]
      rfl
    | ok i =>
      rw [issue_of_decode hr hd, issue_of_decode hr (s := s.forget) hd]
      exact exec_forget i { s with sel := k }

theorem quietStep_forget (s : State) : quietStep s.forget = quietStep s := by
  simp [quietStep, State.forget, State.unreported, State.idle, State.report, Function.comp_def]

@[simp] theorem State.rotationOwner_forget (s : State) (pin : Nat) : s.forget.rotationOwner pin = s.rotationOwner pin :=
  List.findIdx?_map ..

@[simp] theorem State.clickOwner_forget (s : State) (pin : Nat) : s.forget.clickOwner pin = s.clickOwner pin :=
  List.findIdx?_map ..

theorem runStimulus_forget (x : Stimulus) (s : State) : runStimulus x s.forget = runStimulus x s := by
  cases x with
  | drive k p =>
    simp only [runStimulus, runDrive, issue_forget]
    exact mapNext_unreported (fun _ => rfl) _
  | rotation pin clk dt =>
    simp only [runStimulus, dispatchRotation, State.rotationOwner_forget, quietStep_forget, issue_forget]
    cases s.rotationOwner pin with
    | none => rfl
    | some k => exact mapNext_unreported (f := fun t => t.report t.rotationResult) (fun _ => rfl) _
  | click pin now =>
    simp only [runStimulus, dispatchClick, State.clickOwner_forget, quietStep_forget, issue_forget]
    cases s.clickOwner pin with
    | none => rfl
    | some k => exact mapNext_unreported (f := fun t => t.report t.clickResult) (fun _ => rfl) _

theorem step_forget (s : State) : step s.forget = step s := by
  cases hin : s.inputs with
  | nil => rw [step_nil hin, step_nil (s := s.forget) hin, quietStep_forget]
  | cons x rest =>
    rw [step_cons hin, step_cons (s := s.forget) hin]
    exact runStimulus_forget x { s with inputs := rest }

/-- Settles O40: without the observations both states are the same. -/
theorem outputsAreNotStored : Obligations.OutputsAreNotStored := by
  intro s o r e
  have hencoders : (s.encoders.mapIdx fun j x => { x with out := o j }).map Encoder.idle = s.encoders.map Encoder.idle := by
    apply List.ext_getElem?
    intro j
    simp [List.getElem?_mapIdx, Function.comp_def]
  rw [← step_forget s, ← step_forget]
  simp only [State.forget, State.unreported, State.idle, hencoders]

end Sys2Proof.Machine
end

section
/-! PROOF. Streams with something put in or left out (R109, R115, R152, R155): few samples, a dropped sample, a NOP between two
commands, and the commands between a reset and the first click. -/

namespace Sys2Proof.Machine

/-! Few samples (R152) -/

/-- A cell with an event stands in the row CW3 or ACW3 (R88). -/
theorem eventOf_transition_eq_none {r : Row} (hcw : r ≠ .cw3) (hacw : r ≠ .acw3) (p : Sample) :
    eventOf (transition r p) = .none := by
  cases h : eventOf (transition r p) with
  | none => rfl
  | clockwise =>
    obtain ⟨hr, _⟩ := (transition_eq_cwFinish_iff r p).mp ((eventOf_clockwise_iff _).mp h)
    exact absurd hr hcw
  | antiClockwise =>
    obtain ⟨hr, _⟩ := (transition_eq_acwFinish_iff r p).mp ((eventOf_antiClockwise_iff _).mp h)
    exact absurd hr hacw

/-- A row is no fewer samples away from START than its part of the cycle has. -/
theorem length_cycleUpTo_rowAfter_le (ss : List Sample) : (cycleUpTo (rowAfter .start ss)).length ≤ ss.length :=
  (cycleUpTo_rowAfter .start ss).length_le

/-- Fewer than four samples from START give no event: the one before the event already stands in CW3 or ACW3. -/
theorem eventsFrom_start_eq_none {ss : List Sample} (h : ss.length < 4) : ∀ e ∈ eventsFrom .start ss, e = .none := by
  induction ss using List.reverseRecOn with
  | nil => exact fun _ he => absurd he List.not_mem_nil
  | append_singleton ss p ih =>
    have hshort : ss.length < 3 := by
      rw [List.length_append, List.length_singleton] at h
      omega
    have hcycle := (length_cycleUpTo_rowAfter_le ss).trans_lt hshort
    have hnone : eventOf (transition (rowAfter .start ss) p) = .none := by
      apply eventOf_transition_eq_none <;> intro hrow <;> rw [hrow] at hcycle <;> exact absurd hcycle (by decide)
    intro e he
    rw [eventsFrom_append] at he
    obtain he | he := List.mem_append.mp he
    · exact ih (hshort.trans (by decide)) e he
    · exact (List.mem_singleton.mp he).trans hnone

/-- Settles O29: no event in a short list, and the cycle `10, 11, 01, 00` through the table. -/
theorem eventNeedsFourSamples : Obligations.EventNeedsFourSamples := by
  intro s k x hx hstart
  refine ⟨fun ss hss o ho => ?_, ?_⟩
  · rw [(advances_run hx ss).2, hstart] at ho
    obtain ⟨e, he, rfl⟩ := List.mem_map.mp ho
    rw [eventsFrom_start_eq_none hss e he]
    rfl
  · rw [(advances_run hx _).2, hstart]
    rfl

/-! A dropped sample (R155)

From CW3 the `00` that opens a lap closes the lap before it, from any other row it does not; so the count goes by induction over
the laps, with START and CW3 as the rows that a lap can begin in. -/

theorem laps_succ (lap : List Sample) (n : Nat) : laps lap (n + 1) = lap ++ laps lap n := rfl

/-- The number of CLOCKWISE events of a list of samples from a row, and that of ANTI_CLOCKWISE ones. -/
def turns (r : Row) (ss : List Sample) : Nat × Nat :=
  ((eventsFrom r ss).count .clockwise, (eventsFrom r ss).count .antiClockwise)

theorem turns_append (r : Row) (as bs : List Sample) : turns r (as ++ bs) = turns r as + turns (rowAfter r as) bs := by
  simp [turns, eventsFrom_append]

/-- A lap leads to CW3 and gives the event of the lap before it, if there was one. -/
theorem turns_lap_append (ss : List Sample) :
    turns .start (clockwiseLap ++ ss) = turns .cw3 ss ∧ turns .cw3 (clockwiseLap ++ ss) = (1, 0) + turns .cw3 ss := by
  rw [turns_append, turns_append]
  exact ⟨zero_add _, rfl⟩

/-- From a row other than CW3 and ACW3 laps give what they give from START. -/
theorem turns_laps_of_ne {r : Row} (hcw : r ≠ .cw3) (hacw : r ≠ .acw3) (n : Nat) :
    turns r (laps clockwiseLap n) = turns .start (laps clockwiseLap n) := by
  have hopen : ∀ ss, turns r (0b00#2 :: ss) = turns .start (0b00#2 :: ss) := fun ss => by
    simp only [turns, eventsFrom, rowOf_transition_00, eventOf_transition_eq_none hcw hacw]
    rfl
  cases n with
  | zero => exact hopen []
  | succ n => exact hopen _

/-- Clean laps: one event each, and one more for a lap that was begun before. -/
theorem turns_laps (n : Nat) :
    turns .start (laps clockwiseLap n) = (n, 0) ∧ turns .cw3 (laps clockwiseLap n) = (n + 1, 0) := by
  induction n with
  | zero => decide
  | succ n ih =>
    obtain ⟨_, hcw3⟩ := ih
    obtain ⟨hlap, hlap'⟩ := turns_lap_append (laps clockwiseLap n)
    rw [laps_succ, hlap, hlap', hcw3]
    exact ⟨rfl, by rw [Prod.mk_add_mk, add_comm 1]⟩

theorem laps_eraseIdx_of_lt {n i : Nat} (hi : i < 4) :
    (laps clockwiseLap (n + 1)).eraseIdx i = clockwiseLap.eraseIdx i ++ laps clockwiseLap n :=
  List.eraseIdx_append_of_lt_length hi _

theorem laps_eraseIdx_add (n i : Nat) :
    (laps clockwiseLap (n + 1)).eraseIdx (i + 4) = clockwiseLap ++ (laps clockwiseLap n).eraseIdx i :=
  List.eraseIdx_append_of_length_le (Nat.le_add_left 4 i) _

/-- A lap without one of its samples after the `00` leads neither to CW3 nor to ACW3, so the lap after it starts anew. -/
theorem turns_spoiled_lap {n i : Nat} (hpos : 0 < i) (hi : i < 4) :
    turns .start ((laps clockwiseLap (n + 1)).eraseIdx i) = (n, 0) ∧
    turns .cw3 ((laps clockwiseLap (n + 1)).eraseIdx i) = (n + 1, 0) := by
  obtain ⟨hlaps, _⟩ := turns_laps n
  have hspoiled : turns .start (clockwiseLap.eraseIdx i) = (0, 0) ∧ turns .cw3 (clockwiseLap.eraseIdx i) = (1, 0) ∧
      ∀ r ∈ [Row.start, .cw3], rowAfter r (clockwiseLap.eraseIdx i) ≠ .cw3 ∧
        rowAfter r (clockwiseLap.eraseIdx i) ≠ .acw3 := by
    interval_cases i <;> decide
  obtain ⟨hstart, hcw3, hrow⟩ := hspoiled
  obtain ⟨hs, hs'⟩ := hrow .start (by simp)
  obtain ⟨hc, hc'⟩ := hrow .cw3 (by simp)
  rw [laps_eraseIdx_of_lt hi, turns_append, turns_append, turns_laps_of_ne hs hs', turns_laps_of_ne hc hc', hstart, hcw3, hlaps]
  exact ⟨zero_add _, by rw [Prod.mk_add_mk, add_comm 1]⟩

/-- Without its leading `00` the first lap still leads from START to CW3; from CW3 it leads to FAULT, and no lap is closed. -/
theorem turns_headless_lap (n : Nat) :
    turns .start ((laps clockwiseLap (n + 1)).eraseIdx 0) = (n + 1, 0) ∧
    turns .cw3 ((laps clockwiseLap (n + 1)).eraseIdx 0) = (n, 0) := by
  obtain ⟨hstart, hcw3⟩ := turns_laps n
  have hfault : turns .fault (laps clockwiseLap n) = (n, 0) :=
    (turns_laps_of_ne (by decide) (by decide) n).trans hstart
  rw [laps_eraseIdx_of_lt (by decide), turns_append, turns_append]
  exact ⟨(zero_add _).trans hcw3, (zero_add _).trans hfault⟩

/-- The first sample, another one of the first lap, or one after the first lap. -/
theorem index_cases (i : Nat) : i = 0 ∨ (0 < i ∧ i < 4) ∨ ∃ m, i = m + 4 := by
  by_cases h : i < 4
  · omega
  · exact .inr (.inr ⟨i - 4, by omega⟩)

theorem lostEvents_zero (n : Nat) : lostEvents n 0 = 0 := rfl

/-- A sample other than `00`. -/
theorem lostEvents_of_mod_ne {n i : Nat} (h : i % 4 ≠ 0) : lostEvents n i = 1 := by
  have h0 : i ≠ 0 := by omega
  have hlast : i ≠ 4 * n := by omega
  simp [lostEvents, h0, hlast, h]

/-- The `00` between the first lap and the second. -/
theorem lostEvents_between (n : Nat) : lostEvents (n + 2) 4 = 2 := by
  have hlast : 4 ≠ 4 * (n + 2) := by omega
  simp [lostEvents, hlast]

/-- One lap more before the sample changes nothing, if one stood there before. -/
theorem lostEvents_succ (n i : Nat) : lostEvents (n + 2) (i + 4 + 4) = lostEvents (n + 1) (i + 4) := by
  simp [lostEvents, Nat.mul_add]

/-- A sample dropped after a lap that was begun before and is still to be closed. -/
theorem turns_cw3_dropped {n i : Nat} (hi : i ≤ 4 * n) :
    turns .cw3 ((laps clockwiseLap n).eraseIdx i) + (lostEvents (n + 1) (i + 4), 0) = (n + 1, 0) := by
  induction n generalizing i with
  | zero =>
    obtain rfl : i = 0 := by omega
    rfl
  | succ n ih =>
    obtain rfl | ⟨hpos, hlt⟩ | ⟨m, rfl⟩ := index_cases i
    · obtain ⟨_, hcw3⟩ := turns_headless_lap n
      rw [hcw3, lostEvents_between]
      rfl
    · obtain ⟨_, hcw3⟩ := turns_spoiled_lap (n := n) hpos hlt
      rw [hcw3, lostEvents_of_mod_ne (by omega)]
      rfl
    · obtain ⟨_, hlap⟩ := turns_lap_append ((laps clockwiseLap n).eraseIdx m)
      rw [laps_eraseIdx_add, hlap, lostEvents_succ, add_assoc, ih (by omega), Prod.mk_add_mk, add_comm 1]

/-- A sample dropped from clean laps that begin in START. -/
theorem turns_start_dropped {n i : Nat} (hi : i ≤ 4 * n) :
    turns .start ((laps clockwiseLap n).eraseIdx i) + (lostEvents n i, 0) = (n, 0) := by
  cases n with
  | zero =>
    obtain rfl : i = 0 := by omega
    rfl
  | succ n =>
    obtain rfl | ⟨hpos, hlt⟩ | ⟨m, rfl⟩ := index_cases i
    · obtain ⟨hstart, _⟩ := turns_headless_lap n
      rw [hstart, lostEvents_zero]
      rfl
    · obtain ⟨hstart, _⟩ := turns_spoiled_lap (n := n) hpos hlt
      rw [hstart, lostEvents_of_mod_ne (by omega)]
      rfl
    · obtain ⟨hlap, _⟩ := turns_lap_append ((laps clockwiseLap n).eraseIdx m)
      rw [laps_eraseIdx_add, hlap, turns_cw3_dropped (by omega)]

/-! The anticlockwise cycle is the clockwise one with CLK and DT exchanged. -/

/-- The sample with its two levels exchanged. -/
def Sample.mirror (s : Sample) : Sample := sampleOf (Sample.dt s) (Sample.clk s)

/-- The row at the same position of the other direction. -/
def Row.mirror : Row → Row
  | .start => .start
  | .cw1   => .acw1
  | .cw2   => .acw2
  | .cw3   => .acw3
  | .acw1  => .cw1
  | .acw2  => .cw2
  | .acw3  => .cw3
  | .fault => .fault

/-- The event of the other direction. -/
def RotationEvent.mirror : RotationEvent → RotationEvent
  | .none          => .none
  | .clockwise     => .antiClockwise
  | .antiClockwise => .clockwise

theorem RotationEvent.mirror_injective : Function.Injective RotationEvent.mirror :=
  Function.Involutive.injective fun e => by cases e <;> rfl

/-- The transition table is symmetric (R81). -/
theorem transition_mirror (r : Row) (p : Sample) :
    rowOf (transition r.mirror (Sample.mirror p)) = (rowOf (transition r p)).mirror ∧
    eventOf (transition r.mirror (Sample.mirror p)) = (eventOf (transition r p)).mirror := by
  obtain rfl | rfl | rfl | rfl := sample_cases p <;> cases r <;> exact ⟨rfl, rfl⟩

theorem eventsFrom_mirror (r : Row) (ss : List Sample) :
    eventsFrom r.mirror (ss.map Sample.mirror) = (eventsFrom r ss).map RotationEvent.mirror := by
  induction ss generalizing r with
  | nil => rfl
  | cons p ps ih =>
    obtain ⟨hrow, hevent⟩ := transition_mirror r p
    simp only [List.map_cons, eventsFrom, hrow, hevent, ih]

theorem turns_mirror (r : Row) (ss : List Sample) : turns r.mirror (ss.map Sample.mirror) = (turns r ss).swap := by
  rw [turns, eventsFrom_mirror]
  exact Prod.ext (List.count_map_of_injective _ _ RotationEvent.mirror_injective .antiClockwise)
    (List.count_map_of_injective _ _ RotationEvent.mirror_injective .clockwise)

theorem laps_mirror (n : Nat) : laps antiClockwiseLap n = (laps clockwiseLap n).map Sample.mirror := by
  induction n with
  | zero => rfl
  | succ n ih =>
    rw [laps_succ, laps_succ, ih, List.map_append]
    rfl

/-- The anticlockwise laps without a sample turn as often as the clockwise ones, the other way round. -/
theorem turns_antiClockwise_dropped (n i : Nat) :
    turns .start ((laps antiClockwiseLap n).eraseIdx i) = (turns .start ((laps clockwiseLap n).eraseIdx i)).swap := by
  rw [laps_mirror, List.eraseIdx_map]
  exact turns_mirror .start _

/-- The outputs of a list of samples from START, counted. -/
theorem countP_ownOutputs {s : State} {k : Nat} {x : Encoder} (hx : s.encoders[k]? = some x) (hstart : x.state = .start)
    (ss : List Sample) :
    (ownOutputs k (advances k ss) s).countP (·.cw) = (turns .start ss).1 ∧
    (ownOutputs k (advances k ss) s).countP (·.acw) = (turns .start ss).2 := by
  rw [(advances_run hx ss).2, hstart, List.countP_map, List.countP_map]
  exact ⟨rfl, rfl⟩

/-- Settles O30: the clockwise laps by induction over the laps, the anticlockwise ones by the symmetry of the table. -/
theorem oneMissedSampleLosesAtMostTwoTurns : Obligations.OneMissedSampleLosesAtMostTwoTurns := by
  intro s k x n i hx hstart hi
  have h := turns_start_dropped hi
  obtain ⟨hcw, hacw⟩ := countP_ownOutputs hx hstart ((laps clockwiseLap n).eraseIdx i)
  obtain ⟨hcw', hacw'⟩ := countP_ownOutputs hx hstart ((laps antiClockwiseLap n).eraseIdx i)
  rw [hcw, hacw, hcw', hacw', turns_antiClockwise_dropped]
  have hturns := And.intro (congrArg Prod.fst h) (congrArg Prod.snd h)
  exact ⟨hturns, hturns⟩

/-! The first click after a reset (R109) -/

/-- A stream without a CLICK to encoder `k` has no click that it accepts. -/
theorem ownOutputs_click_low {k : Nat} {cs : List (Nat × Instr)} {s t : State} (ht : runCommands cs s = .next t)
    (hcs : ∀ c ∈ cs, ∀ n, c ≠ (k, .click n)) : ∀ o ∈ ownOutputs k cs s, o.click = false := by
  induction cs generalizing s with
  | nil => exact fun o ho => absurd ho List.not_mem_nil
  | cons c cs ih =>
    obtain ⟨j, i⟩ := c
    obtain ⟨hj, ht⟩ := runCommands_cons.mp ht
    intro o ho
    rw [ownOutputs_cons hj] at ho
    obtain ho | ho := List.mem_append.mp ho
    · by_cases hjk : j = k
      · subst hjk
        obtain ⟨x, _, rfl⟩ : ∃ x, s.encoders[j]? = some x ∧ (x.apply s.w i).out = o := by simpa using ho
        cases i with
        | nop => rfl
        | advance p => rfl
        | click n => exact absurd rfl (hcs _ List.mem_cons_self n)
      · rw [if_neg hjk] at ho
        exact absurd ho List.not_mem_nil
    · exact ih ht (fun c hc => hcs c (List.mem_cons_of_mem _ hc)) o ho

/-- Settles O3: the reset leaves T_RESET in LAST_TS, and no command of the stream writes it. -/
theorem firstClickAfterResetUsesTReset : Obligations.FirstClickAfterResetUsesTReset := by
  intro s r r' k j p rest cs x now hin hr hstep hx hrun hcs
  obtain rfl : _ = r := Host.Outcome.next.inj ((step_of_rst hin hr).symm.trans hstep)
  have hreset : (({ s with inputs := rest } : State).restart.report .nothing).encoders[j]? = some (x.restart s.tReset) := by
    rw [State.report_encoders, State.restart_getElem?, hx]
    rfl
  obtain ⟨hw, y, hy, hlast, hcfg⟩ := lastTs_kept_without_accepted_click hreset hrun (ownOutputs_click_low hrun hcs)
  have hw' : r'.w = s.w := hw
  obtain ⟨t, ht, hz, _⟩ := exec_completes_at (i := .click now) hy
  refine ⟨t, _, ht, hz, ?_⟩
  rw [Encoder.apply, Encoder.click_out_click, Encoder.accepts_iff_emod, hlast, hcfg, hw']
  rfl

/-! A NOP between two commands (R115) -/

/-- A NOP leaves the device in agreement with itself on every encoder. -/
theorem State.agreeOn_after_nop (j k : Nat) (s : State) : (s.after k .nop).AgreeOn j s where
  w := rfl
  encoder := by simp [Encoder.apply, Function.comp_def]

theorem State.AgreeOn.symm {k : Nat} {s u : State} (h : s.AgreeOn k u) : u.AgreeOn k s := ⟨h.w.symm, h.encoder.symm⟩

/-- The same command on both sides keeps an agreement, whichever encoder it goes to. -/
theorem State.AgreeOn.after_both {k : Nat} {s u : State} (h : s.AgreeOn k u) (j : Nat) (i : Instr) :
    (s.after j i).AgreeOn k (u.after j i) := by
  by_cases hj : j = k
  · subst hj
    exact h.after_own i
  · exact ((h.after_other hj i).symm.after_other hj i).symm

/-- From states that agree on every encoder, a stream ends in such states and drives the same outputs. -/
theorem run_of_agreeOn {cs : List (Nat × Instr)} {s t u : State} (h : ∀ k, s.AgreeOn k u)
    (ht : runCommands cs s = .next t) :
    ∃ v, runCommands cs u = .next v ∧ (∀ k, t.AgreeOn k v) ∧ ∀ k, ownOutputs k cs s = ownOutputs k cs u := by
  induction cs generalizing s u with
  | nil =>
    cases ht
    exact ⟨u, rfl, h, fun _ => rfl⟩
  | cons c cs ih =>
    obtain ⟨j, i⟩ := c
    obtain ⟨hj, ht⟩ := runCommands_cons.mp ht
    have hu := (h j).lt_length hj
    obtain ⟨v, hv, hagree, hout⟩ := ih (fun k => (h k).after_both j i) ht
    refine ⟨v, runCommands_cons.mpr ⟨hu, hv⟩, hagree, fun k => ?_⟩
    rw [ownOutputs_cons hj, ownOutputs_cons hu, hout k]
    by_cases hjk : j = k
    · subst hjk
      rw [(h j).after_own_encoder i]
    · rw [if_neg hjk, if_neg hjk]

theorem regs_eq_of_agreeOn {s u : State} (h : ∀ k, s.AgreeOn k u) :
    s.encoders.map Encoder.regs = u.encoders.map Encoder.regs := by
  apply List.ext_getElem?
  intro k
  rw [List.getElem?_map, List.getElem?_map, (h k).regs]

/-- A stream of commands keeps the configuration (R25, R26). -/
theorem runCommands_config {cs : List (Nat × Instr)} {s t : State} (h : runCommands cs s = .next t) :
    t.config = s.config := by
  induction cs generalizing s with
  | nil =>
    cases h
    rfl
  | cons c cs ih =>
    obtain ⟨k, i⟩ := c
    obtain ⟨_, h⟩ := runCommands_cons.mp h
    rw [ih h, State.performed_config (Encoder.apply_cfg s.w i), State.config_sel]

theorem runCommands_length {cs : List (Nat × Instr)} {s t : State} (h : runCommands cs s = .next t) :
    t.encoders.length = s.encoders.length := by
  have hcfg := congrArg (List.length ∘ DeviceConfig.encoders) (runCommands_config h)
  simpa [State.config] using hcfg

/-- What encoder `j` drives in a NOP to encoder `k` and in the stream after it. -/
theorem ownOutputs_nop_cons {j k : Nat} {cs : List (Nat × Instr)} {s : State} (hk : k < s.encoders.length) :
    ownOutputs j ((k, .nop) :: cs) s =
      (if j = k then [Outputs.allLow] else []) ++ ownOutputs j cs (s.after k .nop) := by
  rw [ownOutputs_cons hk]
  by_cases hjk : j = k
  · subst hjk
    rw [if_pos rfl, if_pos rfl, State.performed_getElem?, List.getElem?_eq_getElem (by exact hk)]
    simp [Encoder.apply]
  · rw [if_neg (Ne.symm hjk), if_neg hjk]

/-- Settles O51: the rest of the stream runs from a state that agrees with the one before the NOP on every encoder. -/
theorem nopBetweenCommandsChangesNothing : Obligations.NopBetweenCommandsChangesNothing := by
  intro s u k pre post hk hrun
  obtain ⟨m, hpre, hpost⟩ := runCommands_append.mp hrun
  have hkm : k < m.encoders.length := runCommands_length hpre ▸ hk
  obtain ⟨t, ht, hend, hout⟩ := run_of_agreeOn (fun j => (m.agreeOn_after_nop j k).symm) hpost
  have hrun' : runCommands (pre ++ (k, .nop) :: post) s = .next t :=
    runCommands_append.mpr ⟨m, hpre, runCommands_cons.mpr ⟨hkm, ht⟩⟩
  refine ⟨t, hrun', (regs_eq_of_agreeOn hend).symm, (runCommands_config hrun').trans (runCommands_config hrun).symm,
    fun j => ⟨ownOutputs j post m, ownOutputs_append hpre, ?_⟩⟩
  rw [ownOutputs_append hpre, ownOutputs_nop_cons hkm, hout j, List.append_assoc]
  rfl

end Sys2Proof.Machine
end

section
/-! PROOF. Triggers (R137 to R139): a claimed trigger is one command to the claiming encoder, with its result returned, and an
unclaimed one is a step in which nothing reaches the device. -/

namespace Sys2Proof.Machine

/-- `{CLK, DT}` as a number is `2*CLK + DT` (R63). -/
theorem ofNat_eq_sampleOf (clk dt : Bool) : BitVec.ofNat 2 (2 * clk.toNat + dt.toNat) = sampleOf clk dt := by
  cases clk <;> cases dt <;> rfl

/-- A command leaves the registers of every other encoder. -/
theorem State.after_regs_other {s : State} {j k : Nat} {z : Encoder} (i : Instr) (hj : j ≠ k)
    (hz : s.encoders[j]? = some z) : (s.after k i).encoders[j]?.map Encoder.regs = some z.regs := by
  simp [hz, hj]

/-- The encoder that a command went to. -/
theorem State.after_own_getElem? {s : State} {k : Nat} {x : Encoder} (i : Instr) (hx : s.encoders[k]? = some x) :
    (s.after k i).encoders[k]? = some (x.apply s.w i) := by
  simp [hx]

/-- dispatchRotation returns what the pair of event outputs codes (R69, R137). -/
theorem State.rotationResult_of_ofEvent {t : State} {y : Encoder} (hy : t.encoders[t.sel]? = some y)
    {ev : RotationEvent} (hout : y.out = Outputs.ofEvent ev) :
    t.rotationResult =
      if y.out.cw = true then .rotation y.cfg.id .clockwise
      else if y.out.acw = true then .rotation y.cfg.id .antiClockwise
      else .nothing := by
  rw [State.rotationResult, hy, hout]
  cases ev <;> simp [hout, Outputs.event, Outputs.ofEvent]

/-- A claimed rotation trigger completes. -/
theorem dispatchRotation_completes {s : State} {pin k : Nat} {clk dt : Bool} (h : s.rotationOwner pin = some k) :
    dispatchRotation pin clk dt s =
      .next ((s.after k (.advance (sampleOf clk dt))).report (s.after k (.advance (sampleOf clk dt))).rotationResult) := by
  rw [dispatchRotation_of_owner h, exec_of_lt (State.rotationOwner_lt h)]
  rfl

/-- A claimed click trigger with a W-bit timestamp completes. -/
theorem dispatchClick_completes {s : State} {pin now k : Nat} (hnow : now < 2 ^ s.w) (h : s.clickOwner pin = some k) :
    dispatchClick pin now s = .next ((s.after k (.click now)).report (s.after k (.click now)).clickResult) := by
  rw [dispatchClick_of_owner h, portNow_of_fits hnow, exec_of_lt (State.clickOwner_lt h)]
  rfl

/-- Settles O44: the step is the ADVANCE to the first claiming encoder and the report of its event. -/
theorem rotationTriggerAdvancesOwner : Obligations.RotationTriggerAdvancesOwner := by
  intro s rest pin k clk dt x hin hx hpin hfirst
  have howner : s.rotationOwner pin = some k :=
    State.rotationOwner_eq_some hx ((Encoder.ownsRotation_iff pin x).mpr hpin) fun j z hj hz => by
      simpa [Encoder.ownsRotation] using hfirst j z hj hz
  have hstep := (step_cons hin).trans
    (dispatchRotation_completes (s := { s with inputs := rest }) (clk := clk) (dt := dt) howner)
  have hy := State.after_own_getElem? (s := { s with inputs := rest }) (.advance (sampleOf clk dt)) hx
  refine ⟨_, s.after k (.advance (sampleOf clk dt)), x.advance (sampleOf clk dt), hstep, ?_, rfl, rfl, hy,
    fun j z hj hz => State.after_regs_other (s := { s with inputs := rest }) _ hj hz, ?_⟩
  · rw [ofNat_eq_sampleOf]
    exact exec_of_lt (lt_of_encoder hx)
  · exact State.rotationResult_of_ofEvent hy (x.advance_out _)

/-- Settles O45: the step is the CLICK to the first encoder with this SW pin and the report of its decision. -/
theorem clickTriggerClicksOwner : Obligations.ClickTriggerClicksOwner := by
  intro s rest pin now k x hin hnow hx hpin hfirst
  have howner : s.clickOwner pin = some k :=
    State.clickOwner_eq_some hx ((Encoder.ownsClick_iff pin x).mpr hpin) fun j z hj hz => by
      simpa [Encoder.ownsClick] using hfirst j z hj hz
  have hstep := (step_cons hin).trans (dispatchClick_completes (s := { s with inputs := rest }) hnow howner)
  have hy := State.after_own_getElem? (s := { s with inputs := rest }) (.click now) hx
  refine ⟨_, s.after k (.click now), x.click s.w now, hstep, exec_of_lt (lt_of_encoder hx), rfl, rfl, hy,
    fun j z hj hz => State.after_regs_other (s := { s with inputs := rest }) _ hj hz, ?_⟩
  have hsel : (({ s with inputs := rest } : State).after k (.click now)).sel = k := rfl
  rw [State.report_returned, State.clickResult, hsel, hy]
  rfl

/-- An unclaimed trigger is a step in which nothing reaches the device. -/
theorem step_of_unclaimed_rotation {s : State} {rest : List Stimulus} {pin : Nat} {clk dt : Bool}
    (hin : s.inputs = .rotation pin clk dt :: rest)
    (h : ∀ x ∈ s.encoders, x.cfg.pins.clk ≠ pin ∧ x.cfg.pins.dt ≠ pin) :
    step s = quietStep { s with inputs := rest } := by
  have hnone : s.rotationOwner pin = none :=
    State.rotationOwner_eq_none.mpr fun x hx => by simpa [Encoder.ownsRotation] using h x hx
  exact (step_cons hin).trans (dispatchRotation_unclaimed (s := { s with inputs := rest }) hnone)

theorem step_of_unclaimed_click {s : State} {rest : List Stimulus} {pin now : Nat}
    (hin : s.inputs = .click pin now :: rest) (h : ∀ x ∈ s.encoders, x.cfg.pins.sw ≠ some pin) :
    step s = quietStep { s with inputs := rest } := by
  have hnone : s.clickOwner pin = none :=
    State.clickOwner_eq_none.mpr fun x hx => by simpa [Encoder.ownsClick] using h x hx
  exact (step_cons hin).trans (dispatchClick_unclaimed (s := { s with inputs := rest }) hnone)

/-- Settles O46: the step idles every encoder and reports nothing. -/
theorem unclaimedTriggerDoesNothing : Obligations.UnclaimedTriggerDoesNothing := by
  intro s rest pin now clk dt h
  have hstep : step s = quietStep { s with inputs := rest } :=
    h.elim (fun ⟨hin, hpins⟩ => step_of_unclaimed_rotation hin hpins)
      fun ⟨hin, hpins⟩ => step_of_unclaimed_click hin hpins
  refine ⟨_, hstep, ?_, State.config_idle { s with inputs := rest }, rfl, rfl,
    State.idle_report_emission .nothing _, fun x hx => ?_⟩
  · simp [Function.comp_def]
  · obtain ⟨y, _, rfl⟩ := List.mem_map.mp hx
    rfl

end Sys2Proof.Machine
end

section
/-! PROOF. Distinct pins (R124, R135): a pin has one encoder and, in it, one role, so one registration, and an edge on it runs
at most that one handler. -/

namespace Sys2Proof.Machine

theorem Pins.clk_mem_all (p : Pins) : p.clk ∈ p.all := by simp [Pins.all]

theorem Pins.dt_mem_all (p : Pins) : p.dt ∈ p.all := by simp [Pins.all]

theorem Pins.sw_mem_all {p : Pins} {q : Nat} (h : p.sw = some q) : q ∈ p.all := by simp [Pins.all, h]

/-- The list of all the device's pins, in the order of its encoders. -/
theorem State.pinsDistinct_iff (s : State) :
    s.config.pinsDistinct = true ↔ (s.encoders.flatMap fun x => x.cfg.pins.all).Nodup := by
  simp [DeviceConfig.pinsDistinct, State.config, List.flatMap_map]

/-- With distinct pins, two encoders that name one pin are the same one. -/
theorem eq_of_shared_pin {s : State} (h : s.config.pinsDistinct = true) {j k pin : Nat} {x z : Encoder}
    (hx : s.encoders[k]? = some x) (hz : s.encoders[j]? = some z) (hpx : pin ∈ x.cfg.pins.all)
    (hpz : pin ∈ z.cfg.pins.all) : j = k := by
  obtain ⟨_, hpair⟩ := List.nodup_flatMap.mp (s.pinsDistinct_iff.mp h)
  obtain ⟨hk, rfl⟩ := List.getElem?_eq_some_iff.mp hx
  obtain ⟨hj, rfl⟩ := List.getElem?_eq_some_iff.mp hz
  obtain hlt | heq | hlt := Nat.lt_trichotomy j k
  · exact absurd hpx (List.pairwise_iff_getElem.mp hpair j k hj hk hlt hpz)
  · exact heq
  · exact absurd hpz (List.pairwise_iff_getElem.mp hpair k j hk hj hlt hpx)

/-- With distinct pins, a SW pin is neither the CLK pin nor the DT pin of its encoder. -/
theorem sw_ne_of_pinsDistinct {s : State} (h : s.config.pinsDistinct = true) {k q : Nat} {x : Encoder}
    (hx : s.encoders[k]? = some x) (hq : x.cfg.pins.sw = some q) : x.cfg.pins.clk ≠ q ∧ x.cfg.pins.dt ≠ q := by
  obtain ⟨hown, _⟩ := List.nodup_flatMap.mp (s.pinsDistinct_iff.mp h)
  have hnodup := hown x (List.mem_of_getElem? hx)
  simp only [Pins.all, hq, Option.toList_some, List.nodup_cons, List.mem_cons, List.not_mem_nil, or_false, not_or] at hnodup
  obtain ⟨⟨_, hclk⟩, hdt, _⟩ := hnodup
  exact ⟨hclk, hdt⟩

theorem Encoder.mem_all_of_ownsRotation {pin : Nat} {x : Encoder} (h : x.ownsRotation pin = true) :
    pin ∈ x.cfg.pins.all := by
  obtain rfl | rfl := (Encoder.ownsRotation_iff pin x).mp h
  · exact Pins.clk_mem_all _
  · exact Pins.dt_mem_all _

theorem Encoder.mem_all_of_ownsClick {pin : Nat} {x : Encoder} (h : x.ownsClick pin = true) :
    pin ∈ x.cfg.pins.all :=
  Pins.sw_mem_all ((Encoder.ownsClick_iff pin x).mp h)

section
variable {s : State} {k pin : Nat} {x : Encoder}

/-- With distinct pins, an encoder that claims a pin for rotation is its first owner. -/
theorem rotationOwner_of_owns (h : s.config.pinsDistinct = true) (hx : s.encoders[k]? = some x)
    (ho : x.ownsRotation pin = true) : s.rotationOwner pin = some k := by
  refine State.rotationOwner_eq_some hx ho fun j z hj hz => ?_
  by_contra hne
  have hz' := Encoder.mem_all_of_ownsRotation (Bool.not_eq_false _ ▸ hne)
  exact absurd (eq_of_shared_pin h hx hz (Encoder.mem_all_of_ownsRotation ho) hz') hj.ne

/-- With distinct pins, an encoder whose SW pin it is is the first owner for clicks. -/
theorem clickOwner_of_owns (h : s.config.pinsDistinct = true) (hx : s.encoders[k]? = some x)
    (ho : x.ownsClick pin = true) : s.clickOwner pin = some k := by
  refine State.clickOwner_eq_some hx ho fun j z hj hz => ?_
  by_contra hne
  have hz' := Encoder.mem_all_of_ownsClick (Bool.not_eq_false _ ▸ hne)
  exact absurd (eq_of_shared_pin h hx hz (Encoder.mem_all_of_ownsClick ho) hz') hj.ne

/-- With distinct pins, no encoder claims one pin for both. -/
theorem false_of_ownsRotation_of_ownsClick (h : s.config.pinsDistinct = true) {j : Nat} {z : Encoder}
    (hx : s.encoders[k]? = some x) (hz : s.encoders[j]? = some z) (hrot : x.ownsRotation pin = true)
    (hclick : z.ownsClick pin = true) : False := by
  obtain rfl := eq_of_shared_pin h hx hz (Encoder.mem_all_of_ownsRotation hrot) (Encoder.mem_all_of_ownsClick hclick)
  obtain rfl := Option.some.inj (hx.symm.trans hz)
  obtain ⟨hclk, hdt⟩ := sw_ne_of_pinsDistinct h hx ((Encoder.ownsClick_iff pin x).mp hclick)
  exact ((Encoder.ownsRotation_iff pin x).mp hrot).elim hclk hdt

/-- A pin claimed for rotation has no owner for clicks. -/
theorem clickOwner_eq_none_of_ownsRotation (h : s.config.pinsDistinct = true) (hx : s.encoders[k]? = some x)
    (ho : x.ownsRotation pin = true) : s.clickOwner pin = none := by
  refine State.clickOwner_eq_none.mpr fun z hmem => ?_
  obtain ⟨j, hz⟩ := List.mem_iff_getElem?.mp hmem
  exact Bool.eq_false_iff.mpr (false_of_ownsRotation_of_ownsClick h hx hz ho)

/-- A pin claimed for clicks has no owner for rotation. -/
theorem rotationOwner_eq_none_of_ownsClick (h : s.config.pinsDistinct = true) (hx : s.encoders[k]? = some x)
    (ho : x.ownsClick pin = true) : s.rotationOwner pin = none := by
  refine State.rotationOwner_eq_none.mpr fun z hmem => ?_
  obtain ⟨j, hz⟩ := List.mem_iff_getElem?.mp hmem
  exact Bool.eq_false_iff.mpr fun hrot => false_of_ownsRotation_of_ownsClick h hz hx hrot ho

end

theorem Encoder.ownsRotation_clk (x : Encoder) : x.ownsRotation x.cfg.pins.clk = true :=
  (Encoder.ownsRotation_iff _ x).mpr (.inl rfl)

theorem Encoder.ownsRotation_dt (x : Encoder) : x.ownsRotation x.cfg.pins.dt = true :=
  (Encoder.ownsRotation_iff _ x).mpr (.inr rfl)

/-- Settles O47: each pin of an encoder has it as its one owner, in the one role. -/
theorem distinctPinsHaveOneOwner : Obligations.DistinctPinsHaveOneOwner := by
  intro s k x h hx
  refine ⟨rotationOwner_of_owns h hx x.ownsRotation_clk, rotationOwner_of_owns h hx x.ownsRotation_dt, fun q hq => ?_,
    clickOwner_eq_none_of_ownsRotation h hx x.ownsRotation_clk, clickOwner_eq_none_of_ownsRotation h hx x.ownsRotation_dt⟩
  have ho : x.ownsClick q = true := (Encoder.ownsClick_iff q x).mpr hq
  exact ⟨clickOwner_of_owns h hx ho, rotationOwner_eq_none_of_ownsClick h hx ho⟩

/-! Edges -/

/-- An encoder registers one handler for each of its pins, in order. -/
theorem Pins.registrations_map_pin (p : Pins) : (Pins.registrations p).map (·.pin) = p.all := by
  simp [Pins.registrations, Pins.all, Function.comp_def]

/-- With distinct pins, no pin is registered twice. -/
theorem State.registrations_pins_nodup {s : State} (h : s.config.pinsDistinct = true) :
    (s.registrations.map (·.pin)).Nodup := by
  rw [State.registrations, List.map_flatMap]
  simpa only [Pins.registrations_map_pin] using s.pinsDistinct_iff.mp h

theorem State.mem_registrations {s : State} {k : Nat} {x : Encoder} (hx : s.encoders[k]? = some x) {r : Registration}
    (hr : r ∈ Pins.registrations x.cfg.pins) : r ∈ s.registrations :=
  List.mem_flatMap.mpr ⟨x, List.mem_of_getElem? hx, hr⟩

/-- With distinct pins, an edge on a registered pin runs the registered handler, if the registration sees the edge, and no
other. -/
theorem handlersOf_of_mem {s : State} (h : s.config.pinsDistinct = true) {r : Registration} (hr : r ∈ s.registrations)
    (old new : Bool) : s.handlersOf r.pin old new = if r.edge.fires old new then [r.handler] else [] := by
  have hpins := State.registrations_pins_nodup h
  have hpin : ∀ r' ∈ s.registrations, (r'.pin == r.pin) = (r' == r) := fun r' hr' => by
    rw [Bool.eq_iff_iff, beq_iff_eq, beq_iff_eq]
    exact ⟨fun hp => List.inj_on_of_nodup_map hpins hr' hr hp, congrArg Registration.pin⟩
  have hone : s.registrations.filter (fun r' => r'.pin == r.pin) = [r] := by
    rw [List.filter_congr hpin, List.filter_beq, List.count_eq_one_of_mem hpins.of_map hr, List.replicate_one]
  have hand : s.registrations.filter (fun r' => r'.pin == r.pin && r'.edge.fires old new) =
      [r].filter fun r' => r'.edge.fires old new := by
    rw [← hone, List.filter_filter]
    exact List.filter_congr fun r' _ => Bool.and_comm _ _
  rw [State.handlersOf, hand]
  cases hf : r.edge.fires old new <;> simp [hf]

/-- A CLK or DT pin is registered for any change. -/
theorem Pins.rotation_mem_registrations {p : Pins} {pin : Nat} (h : pin = p.clk ∨ pin = p.dt) :
    ({ pin := pin, edge := .anyChange, handler := .rotation } : Registration) ∈ Pins.registrations p := by
  obtain rfl | rfl := h <;> simp [Pins.registrations]

/-- A SW pin is registered for a fall. -/
theorem Pins.click_mem_registrations {p : Pins} {pin : Nat} (h : p.sw = some pin) :
    ({ pin := pin, edge := .falling, handler := .click } : Registration) ∈ Pins.registrations p := by
  simp [Pins.registrations, h]

/-- Settles O48: the pin's one registration sees any change, or a fall only. -/
theorem pinEdgesRunTheRegisteredHandler : Obligations.PinEdgesRunTheRegisteredHandler := by
  intro s k x old new clk dt now h hx hedge
  refine ⟨fun pin hpin => ?_, fun pin hpin => ?_⟩
  · have hhandlers := handlersOf_of_mem h (State.mem_registrations hx (Pins.rotation_mem_registrations hpin)) old new
    have hfires : EdgeKind.anyChange.fires old new = true := bne_iff_ne.mpr hedge
    rw [hfires, if_pos rfl] at hhandlers
    rw [State.pinEdge_inputs, hhandlers]
    rfl
  · have hhandlers := handlersOf_of_mem h (State.mem_registrations hx (Pins.click_mem_registrations hpin)) old new
    rw [State.pinEdge_inputs, hhandlers]
    cases new with
    | true => simp [EdgeKind.fires]
    | false =>
      obtain rfl : old = true := Bool.eq_true_of_not_eq_false hedge
      simp [EdgeKind.fires, Handler.stimulus]

end Sys2Proof.Machine
end

section
/-! PROOF. Records (R140, R141): the emission of a step is the record of the addressed encoder, the only one that can drive an
output, and its format is that of the output mode. -/

namespace Sys2Proof.Machine

/-- The emission of a step is the record of the addressed encoder. -/
theorem step_emission {s t : State} (h : step s = .next t) :
    t.emission = t.encoders[t.sel]?.bind (Encoder.emission s.outMode) := by
  have hmode : t.outMode = s.outMode := congrArg DeviceConfig.outMode (stepKeepsConfiguration s t h)
  obtain ⟨u, r, rfl, _⟩ := step_next h
  rw [← hmode]
  rfl

/-- An encoder that drives an output has its record emitted. -/
theorem step_emission_of_action {s t : State} {j : Nat} {x : Encoder} {a : Action} (h : step s = .next t)
    (hx : t.encoders[j]? = some x) (ha : x.out.action = some a) : t.emission = some (emit s.outMode x.cfg.id a) := by
  have hout : x.out ≠ Outputs.allLow := fun hlow => by
    rw [hlow] at ha
    cases ha
  obtain rfl := eq_sel_of_drives h hx hout
  rw [step_emission h, hx, Option.bind_some, Encoder.emission, ha, Option.map_some]

/-- The three outputs and their records (R141); where one is 1, the others are 0 (R27). -/
theorem Outputs.action_of_atMostOne {o : Outputs} (h : o.AtMostOne) :
    (o.cw = true → o.action = some .cw) ∧ (o.acw = true → o.action = some .acw) ∧
    (o.click = true → o.action = some .click) := by
  obtain ⟨hcwAcw, hcwClick, hacwClick⟩ := h
  refine ⟨fun hcw => ?_, fun hacw => ?_, fun hclick => ?_⟩
  · simp [Outputs.action, hcw]
  · have hcw : o.cw = false := Bool.eq_false_iff.mpr fun hcw => hcwAcw ⟨hcw, hacw⟩
    simp [Outputs.action, hcw, hacw]
  · have hcw : o.cw = false := Bool.eq_false_iff.mpr fun hcw => hcwClick ⟨hcw, hclick⟩
    have hacw : o.acw = false := Bool.eq_false_iff.mpr fun hacw => hacwClick ⟨hacw, hclick⟩
    simp [Outputs.action, hcw, hacw, hclick]

/-- Settles O49: an encoder that drives an output is the addressed one, whose record is emitted; zeros have no record. -/
theorem oneRecordPerEvent : Obligations.OneRecordPerEvent := by
  intro s t h
  refine ⟨fun j x hx => ?_, fun hne => ?_⟩
  · obtain ⟨hcw, hacw, hclick⟩ := Outputs.action_of_atMostOne (step_out_atMostOne h hx)
    exact ⟨fun ho => step_emission_of_action h hx (hcw ho), fun ho => step_emission_of_action h hx (hacw ho),
      fun ho => step_emission_of_action h hx (hclick ho)⟩
  · rw [step_emission h] at hne
    cases hx : t.encoders[t.sel]? with
    | none => exact absurd (by rw [hx]; rfl) hne
    | some x =>
      refine ⟨x, List.mem_of_getElem? hx, fun hlow => hne ?_⟩
      rw [hx]
      exact Encoder.emission_of_allLow hlow

theorem Action.code_lt (a : Action) : a.code < 4 := by
  cases a <;> decide

/-- The packed byte of an id that fits, as a number. -/
theorem packedByte_toNat {id : Nat} (h : id ≤ 15) (a : Action) : (packedByte id a).toNat = 0x10 * id + a.code := by
  have hcode := a.code_lt
  rw [packedByte, if_pos h, BitVec.toNat_ofNat, Nat.mod_eq_of_lt (by omega)]

/-- The id stands in bits 7 to 4, and bits 3 and 2 are 0. -/
theorem packedByte_fields {id : Nat} (h : id ≤ 15) (a : Action) :
    ((packedByte id a).extractLsb' 4 4).toNat = id ∧ (packedByte id a).extractLsb' 2 2 = 0b00#2 := by
  have hcode := a.code_lt
  constructor
  · rw [BitVec.extractLsb'_toNat, packedByte_toNat h, Nat.shiftRight_eq_div_pow]
    omega
  · apply BitVec.eq_of_toNat_eq
    rw [BitVec.extractLsb'_toNat, packedByte_toNat h, Nat.shiftRight_eq_div_pow, BitVec.toNat_ofNat]
    omega

/-- Settles O50: the byte by its fields, the line by its definition, for each action. -/
theorem emittedRecordFormat : Obligations.EmittedRecordFormat := by
  intro id a
  refine ⟨fun h => ?_, ?_⟩
  · obtain ⟨hid, hzero⟩ := packedByte_fields h a
    refine ⟨packedByte id a, rfl, ?_, hid, hzero⟩
    rw [packedByte_toNat h]
    cases a <;> rfl
  · cases a <;> rfl

end Sys2Proof.Machine
end
